-- ==== Sys2Proof/Word.lean ====
section
/-! DEFINITION. The core's value types: every register is an unsigned integer of its stated width (spec 00 R8). -/

namespace Sys2Proof

/-- A 16-bit value: `pc`, `I`, a stack slot, an instruction word (spec 10 R23, R26, R27, R34). -/
abbrev Word := BitVec 16

/-- An 8-bit value: a general register, `sp`, a timer, a memory byte, NN (spec 10 R20, R28 to R31). -/
abbrev Byte := BitVec 8

/-- A 4-bit field: X, Y or N (spec 30 R71). As X or Y it names a general register. -/
abbrev Nibble := BitVec 4

/-- The 12-bit address field NNN (spec 30 R71). -/
abbrev Addr := BitVec 12

end Sys2Proof
end

