-- ==== Sys2Proof/Config.lean ====
section
/-! DEFINITION. The parameters of spec 00 R6 (fixed for a run, spec 10 R38), their defaults, the fixed sizes, and the
two free values: the random byte the host answers (spec 60 R188) and what the scratch word holds between steps
(spec 10 R34). -/

namespace Sys2Proof

/-- The three policies the source orders the implementer to choose among (spec 20 R57, 41 R100; decisions D1, D2). -/
inductive BoundsPolicy where
  | fault
  | wrap
  | clamp
  deriving DecidableEq, Repr

/-- What becomes of a sprite pixel past the screen's edge: DRAW_EDGE (spec 44 R157; decision D3). -/
inductive DrawEdge where
  | linear
  | clip
  | wrap
  deriving DecidableEq, Repr

/-- Which register a shift reads: SHIFT_SOURCE (spec 42 R128; decision D4). -/
inductive ShiftSource where
  | vx
  | vy
  deriving DecidableEq, Repr

/-- The parameters of spec 00 R6 that are not fixed by the source. -/
structure Config where
  /-- OOB_POLICY, for memory, the frame buffer's end and the key index (spec 20 R57, 44 R157, 41 R101). -/
  oob : BoundsPolicy
  /-- STACK_POLICY (spec 41 R100). -/
  stackPolicy : BoundsPolicy
  /-- DRAW_EDGE (spec 44 R157). -/
  drawEdge : DrawEdge
  /-- SHIFT_SOURCE (spec 42 R128, R130). -/
  shiftSource : ShiftSource
  /-- STRICT_DECODE (spec 30 R82). -/
  strictDecode : Bool
  /-- GLYPH_DATA, in address order from GLYPH_BASE (spec 20 R55). -/
  glyphData : Vector Byte 80
  /-- ON_PATTERN, the word the host sees for a cell that is on (spec 10 R32). -/
  onPattern : BitVec 32
  deriving DecidableEq, Repr

/-- MEM_SIZE (spec 00 R6). -/
def Config.memSize : Nat := 4096

/-- PROGRAM_BASE, the load address and initial pc (spec 00 R6). -/
def Config.programBase : Nat := 0x200

/-- MAX_IMAGE (spec 00 R6, 60 R186). -/
def Config.maxImage : Nat := 3584

/-- GLYPH_BASE (spec 00 R6, 20 R55). -/
def Config.glyphBase : Nat := 0x000

/-- The default GLYPH_DATA of spec 20 R55 (decision D13). UNVERIFIED: general knowledge by the spec's own word, so
a claim about a digit's pixels rests on it (unsafe; log entry 8). -/
def Config.defaultGlyphs : Vector Byte 80 :=
  #v[0xF0, 0x90, 0x90, 0x90, 0xF0,  0x20, 0x60, 0x20, 0x20, 0x70,
     0xF0, 0x10, 0xF0, 0x80, 0xF0,  0xF0, 0x10, 0xF0, 0x10, 0xF0,
     0x90, 0x90, 0xF0, 0x10, 0x10,  0xF0, 0x80, 0xF0, 0x10, 0xF0,
     0xF0, 0x80, 0xF0, 0x90, 0xF0,  0xF0, 0x10, 0x20, 0x40, 0x40,
     0xF0, 0x90, 0xF0, 0x90, 0xF0,  0xF0, 0x90, 0xF0, 0x10, 0xF0,
     0xF0, 0x90, 0xF0, 0x90, 0x90,  0xE0, 0x90, 0xE0, 0x90, 0xE0,
     0xF0, 0x80, 0x80, 0x80, 0xF0,  0xE0, 0x90, 0x90, 0x90, 0xE0,
     0xF0, 0x80, 0xF0, 0x80, 0xF0,  0xF0, 0x80, 0xF0, 0x80, 0x80]

/-- The defaults of spec 00 R6. -/
def Config.default : Config where
  oob := .fault
  stackPolicy := .fault
  drawEdge := .linear
  shiftSource := .vx
  strictDecode := false
  glyphData := Config.defaultGlyphs
  onPattern := 0xFFFFFFFF

/-- FREE VALUE: the host's answer to the `n`-th request on the random-byte port, any byte under no law
(spec 60 R188; decision D10; log entry 5). It has no body, so nothing can be proved of it. -/
opaque Config.randomByte : Nat → Byte

/-- FREE VALUE: what the scratch word `w` holds after the `n`-th completed step, where the spec gives it no value
(spec 10 R34, 93 U7; log entry 4). It has no body, so nothing can be proved of it. -/
opaque Config.lapsedWord : Nat → Word

end Sys2Proof
end

