-- ==== Sys2Proof/Syntax.lean ====
section
/-! DEFINITION. The instructions: one constructor per row of spec/opcode_table.json (spec 30 R74, R87). `x` and `y` name
general registers, `nn`, `nnn` and `n` are the immediate, address and height fields (spec 30 R71), and `ign` holds the
bits the handler ignores (spec 30 R81), kept so that no bit of a word is lost between decoding and encoding. -/

namespace Sys2Proof

inductive Instr where
  /-- 0x0__0, canonical 00E0: Clear screen (spec 44 R155). -/
  | cls (ign : BitVec 8)
  /-- 0x0__E, canonical 00EE: Return (spec 41 R102). -/
  | ret (ign : BitVec 8)
  /-- 1NNN: Jump (spec 41 R103). -/
  | jp (nnn : Addr)
  /-- 2NNN: Call (spec 41 R104). -/
  | call (nnn : Addr)
  /-- 3XNN: Skip-if-equal, immediate (spec 41 R106). -/
  | seImm (x : Nibble) (nn : Byte)
  /-- 4XNN: Skip-if-not-equal, immediate (spec 41 R107). -/
  | sneImm (x : Nibble) (nn : Byte)
  /-- 5XY_, canonical 5XY0: Skip-if-equal, registers (spec 41 R108). -/
  | seReg (x y : Nibble) (ign : Nibble)
  /-- 6XNN: Load immediate (spec 42 R120). -/
  | ldImm (x : Nibble) (nn : Byte)
  /-- 7XNN: Add immediate (spec 42 R121). -/
  | addImm (x : Nibble) (nn : Byte)
  /-- 8XY0: Move (spec 42 R122). -/
  | ldReg (x y : Nibble)
  /-- 8XY1: bitwise OR (spec 42 R123). -/
  | orReg (x y : Nibble)
  /-- 8XY2: bitwise AND (spec 42 R124). -/
  | andReg (x y : Nibble)
  /-- 8XY3: bitwise XOR (spec 42 R125). -/
  | xorReg (x y : Nibble)
  /-- 8XY4: Add registers (spec 42 R126). -/
  | addReg (x y : Nibble)
  /-- 8XY5: Subtract (spec 42 R127). -/
  | sub (x y : Nibble)
  /-- 8XY6: Shift right (spec 42 R128). -/
  | shr (x y : Nibble)
  /-- 8XY7: Subtract reversed (spec 42 R129). -/
  | subn (x y : Nibble)
  /-- 8XYE: Shift left (spec 42 R130). -/
  | shl (x y : Nibble)
  /-- 9XY_, canonical 9XY0: Skip-if-not-equal, registers (spec 41 R109). -/
  | sneReg (x y : Nibble) (ign : Nibble)
  /-- ANNN: Set index (spec 43 R140). -/
  | ldI (nnn : Addr)
  /-- BNNN: Jump to address + V0 (spec 41 R105). -/
  | jpV0 (nnn : Addr)
  /-- CXNN: Random AND (spec 42 R131). -/
  | rnd (x : Nibble) (nn : Byte)
  /-- DXYN: Draw sprite (spec 44 R156). -/
  | drw (x y n : Nibble)
  /-- EX_E, canonical EX9E: Skip-if-key-pressed (spec 41 R110). -/
  | skp (x : Nibble) (ign : Nibble)
  /-- EX_1, canonical EXA1: Skip-if-key-not-pressed (spec 41 R111). -/
  | sknp (x : Nibble) (ign : Nibble)
  /-- FX07: read delay (spec 45 R165). -/
  | ldVxDt (x : Nibble)
  /-- FX0A: Wait-for-key (spec 45 R169). -/
  | ldVxK (x : Nibble)
  /-- FX15: set delay (spec 45 R166). -/
  | ldDtVx (x : Nibble)
  /-- FX18: set sound (spec 45 R167). -/
  | ldStVx (x : Nibble)
  /-- FX1E: Add to index (spec 43 R141). -/
  | addI (x : Nibble)
  /-- FX29: Index-to-glyph (spec 43 R142). -/
  | ldF (x : Nibble)
  /-- FX33: Binary-coded-decimal store (spec 43 R143). -/
  | ldB (x : Nibble)
  /-- FX55: Register block store (spec 43 R144). -/
  | ldMemVx (x : Nibble)
  /-- FX65: Register block load (spec 43 R145). -/
  | ldVxMem (x : Nibble)
  /-- Every word no other row matches (spec 30 R83, 40 R94); it carries its own word. -/
  | nop (w : Word)
  deriving DecidableEq, Repr

/-- The rows of spec/opcode_table.json by name (spec 30 R87); `LAWS.json` gives each its mnemonic there. -/
inductive Mnemonic where
  | cls | ret | jp | call | seImm | sneImm | seReg
  | ldImm | addImm | ldReg | orReg | andReg | xorReg | addReg
  | sub | shr | subn | shl | sneReg | ldI | jpV0
  | rnd | drw | skp | sknp | ldVxDt | ldVxK | ldDtVx
  | ldStVx | addI | ldF | ldB | ldMemVx | ldVxMem | nop
  deriving DecidableEq, Repr

end Sys2Proof
end

