-- ==== Sys2Proof/WellFormed.lean ====
section
/-! DEFINITION. Well-formed instructions: those some word decodes to. The field widths are in the types, so the one
thing left to check is that a no-op carries a word spec 30 R83 lists as a no-op word. -/

namespace Sys2Proof

/-- The no-op words, exactly as spec 30 R83 lists them. -/
def isNopWord (w : Word) : Bool :=
  let g := w.toNat / 4096
  let n := w.toNat % 16
  let nn := w.toNat % 256
  (g == 0x0 && !(n == 0x0 || n == 0xE)) ||
  (g == 0x8 && ((0x8 ≤ n && n ≤ 0xD) || n == 0xF)) ||
  (g == 0xE && !(n == 0x1 || n == 0xE)) ||
  (g == 0xF && !(nn == 0x07 || nn == 0x0A || nn == 0x15 || nn == 0x18 || nn == 0x1E || nn == 0x29 ||
    nn == 0x33 || nn == 0x55 || nn == 0x65))

/-- Every instruction is well formed but a `nop` whose word is no no-op word. -/
def Instr.wellFormed : Instr → Bool
  | .nop w => isNopWord w
  | .cls _ => true
  | .ret _ => true
  | .jp _ => true
  | .call _ => true
  | .seImm _ _ => true
  | .sneImm _ _ => true
  | .seReg _ _ _ => true
  | .ldImm _ _ => true
  | .addImm _ _ => true
  | .ldReg _ _ => true
  | .orReg _ _ => true
  | .andReg _ _ => true
  | .xorReg _ _ => true
  | .addReg _ _ => true
  | .sub _ _ => true
  | .shr _ _ => true
  | .subn _ _ => true
  | .shl _ _ => true
  | .sneReg _ _ _ => true
  | .ldI _ => true
  | .jpV0 _ => true
  | .rnd _ _ => true
  | .drw _ _ _ => true
  | .skp _ _ => true
  | .sknp _ _ => true
  | .ldVxDt _ => true
  | .ldVxK _ => true
  | .ldDtVx _ => true
  | .ldStVx _ => true
  | .addI _ => true
  | .ldF _ => true
  | .ldB _ => true
  | .ldMemVx _ => true
  | .ldVxMem _ => true

end Sys2Proof
end

