-- ==== Sys2Proof/Decode.lean ====
section
/-! DEFINITION. The decoder (spec 30 R74 to R83), total on every word; the strict decoder that refuses aliases
(spec 30 R82); the encoder, written from the encoding strings of opcode_table.json; the table itself (spec 30 R87);
and the big-endian byte order of an instruction word (spec 20 R52). -/

namespace Sys2Proof

/-! ### Bytes and fields of a word -/

/-- Bits 15-8, the byte at the lower address (spec 20 R52). -/
def hiByte (w : Word) : Byte := w.extractLsb' 8 8

/-- Bits 7-0, the byte at the higher address (spec 20 R52). -/
def loByte (w : Word) : Byte := w.extractLsb' 0 8

/-- `hi ++ lo`: the word of two consecutive bytes (spec 20 R52). -/
def joinBytes (hi lo : Byte) : Word := hi ++ lo

/-- G = w[15:12], the primary group (spec 30 R71). -/
def fieldG (w : Word) : Nibble := w.extractLsb' 12 4

/-- X = w[11:8] (spec 30 R71). -/
def fieldX (w : Word) : Nibble := w.extractLsb' 8 4

/-- Y = w[7:4] (spec 30 R71). -/
def fieldY (w : Word) : Nibble := w.extractLsb' 4 4

/-- N = w[3:0] (spec 30 R71). -/
def fieldN (w : Word) : Nibble := w.extractLsb' 0 4

/-- NN = w[7:0] (spec 30 R71). -/
def fieldNN (w : Word) : Byte := w.extractLsb' 0 8

/-- NNN = w[11:0] (spec 30 R71). -/
def fieldNNN (w : Word) : Addr := w.extractLsb' 0 12

/-- w[11:4], the bits group 0 ignores (spec 30 R81). -/
def fieldXY (w : Word) : BitVec 8 := w.extractLsb' 4 8

/-! ### Decoding -/

/-- Group 0, by w[3:0] alone (spec 30 R76). -/
def decodeGroup0 (w : Word) : Instr :=
  match fieldN w with
  | 0x0#4 => .cls (fieldXY w)
  | 0xE#4 => .ret (fieldXY w)
  | _ => .nop w

/-- Group 8, by w[3:0] (spec 30 R77). -/
def decodeGroup8 (w : Word) : Instr :=
  match fieldN w with
  | 0x0#4 => .ldReg (fieldX w) (fieldY w)
  | 0x1#4 => .orReg (fieldX w) (fieldY w)
  | 0x2#4 => .andReg (fieldX w) (fieldY w)
  | 0x3#4 => .xorReg (fieldX w) (fieldY w)
  | 0x4#4 => .addReg (fieldX w) (fieldY w)
  | 0x5#4 => .sub (fieldX w) (fieldY w)
  | 0x6#4 => .shr (fieldX w) (fieldY w)
  | 0x7#4 => .subn (fieldX w) (fieldY w)
  | 0xE#4 => .shl (fieldX w) (fieldY w)
  | _ => .nop w

/-- Group E, by w[3:0] alone (spec 30 R78). -/
def decodeGroupE (w : Word) : Instr :=
  match fieldN w with
  | 0xE#4 => .skp (fieldX w) (fieldY w)
  | 0x1#4 => .sknp (fieldX w) (fieldY w)
  | _ => .nop w

/-- Group F, by w[7:0] (spec 30 R79). -/
def decodeGroupF (w : Word) : Instr :=
  match fieldNN w with
  | 0x07#8 => .ldVxDt (fieldX w)
  | 0x0A#8 => .ldVxK (fieldX w)
  | 0x15#8 => .ldDtVx (fieldX w)
  | 0x18#8 => .ldStVx (fieldX w)
  | 0x1E#8 => .addI (fieldX w)
  | 0x29#8 => .ldF (fieldX w)
  | 0x33#8 => .ldB (fieldX w)
  | 0x55#8 => .ldMemVx (fieldX w)
  | 0x65#8 => .ldVxMem (fieldX w)
  | _ => .nop w

/-- Decode(w) of spec 30 R74: every word has exactly one instruction. UNVERIFIED: every opcode number but group 6
is general knowledge by the spec's own word (unsafe; log entry 9). -/
def decode (w : Word) : Instr :=
  match fieldG w with
  | 0x0#4 => decodeGroup0 w
  | 0x1#4 => .jp (fieldNNN w)
  | 0x2#4 => .call (fieldNNN w)
  | 0x3#4 => .seImm (fieldX w) (fieldNN w)
  | 0x4#4 => .sneImm (fieldX w) (fieldNN w)
  | 0x5#4 => .seReg (fieldX w) (fieldY w) (fieldN w)
  | 0x6#4 => .ldImm (fieldX w) (fieldNN w)
  | 0x7#4 => .addImm (fieldX w) (fieldNN w)
  | 0x8#4 => decodeGroup8 w
  | 0x9#4 => .sneReg (fieldX w) (fieldY w) (fieldN w)
  | 0xA#4 => .ldI (fieldNNN w)
  | 0xB#4 => .jpV0 (fieldNNN w)
  | 0xC#4 => .rnd (fieldX w) (fieldNN w)
  | 0xD#4 => .drw (fieldX w) (fieldY w) (fieldN w)
  | 0xE#4 => decodeGroupE w
  | _ => decodeGroupF w

/-- The aliases of spec 30 R81: the ignored bits differ from those of the canonical word. DESIGN CHOICE: a no-op word is
never an alias, since R81 lists none and R83 makes each a no-op for good (log entry 7). -/
def isAlias : Instr → Bool
  | .cls ign => ign != 0x0E
  | .ret ign => ign != 0x0E
  | .seReg _ _ ign => ign != 0x0
  | .sneReg _ _ ign => ign != 0x0
  | .skp _ ign => ign != 0x9
  | .sknp _ ign => ign != 0xA
  | _ => false

/-- The decoder under the parameter STRICT_DECODE: `none` where it refuses an alias (spec 30 R82). -/
def decodeWord (strict : Bool) (w : Word) : Option Instr :=
  if strict && isAlias (decode w) then none else some (decode w)

/-- Why the decoder has no instruction to give for some bytes. -/
inductive DecodeError where
  /-- STRICT_DECODE = true and the word `w` is an alias (spec 30 R82). -/
  | aliasRefused (w : Word)
  /-- Fewer than the two bytes every instruction has (spec 30 R70). -/
  | truncated
  deriving DecidableEq, Repr

/-- The decoder on bytes: one instruction, and the bytes after it (spec 30 R70, 20 R52). -/
def decodeBytes (strict : Bool) : List Byte → Except DecodeError (Instr × List Byte)
  | hi :: lo :: rest =>
    match decodeWord strict (joinBytes hi lo) with
    | some i => .ok (i, rest)
    | none => .error (.aliasRefused (joinBytes hi lo))
  | _ => .error .truncated

/-! ### Encoding -/

/-- The word of an instruction (opcode_table.json, spec 30 R72): its group, its fields, its sub-code and, for the bits
its handler ignores, the bits it was decoded with. -/
def encode : Instr → Word
  | .cls ign => 0x0#4 ++ ign ++ 0x0#4
  | .ret ign => 0x0#4 ++ ign ++ 0xE#4
  | .jp nnn => 0x1#4 ++ nnn
  | .call nnn => 0x2#4 ++ nnn
  | .seImm x nn => 0x3#4 ++ x ++ nn
  | .sneImm x nn => 0x4#4 ++ x ++ nn
  | .seReg x y ign => 0x5#4 ++ x ++ y ++ ign
  | .ldImm x nn => 0x6#4 ++ x ++ nn
  | .addImm x nn => 0x7#4 ++ x ++ nn
  | .ldReg x y => 0x8#4 ++ x ++ y ++ 0x0#4
  | .orReg x y => 0x8#4 ++ x ++ y ++ 0x1#4
  | .andReg x y => 0x8#4 ++ x ++ y ++ 0x2#4
  | .xorReg x y => 0x8#4 ++ x ++ y ++ 0x3#4
  | .addReg x y => 0x8#4 ++ x ++ y ++ 0x4#4
  | .sub x y => 0x8#4 ++ x ++ y ++ 0x5#4
  | .shr x y => 0x8#4 ++ x ++ y ++ 0x6#4
  | .subn x y => 0x8#4 ++ x ++ y ++ 0x7#4
  | .shl x y => 0x8#4 ++ x ++ y ++ 0xE#4
  | .sneReg x y ign => 0x9#4 ++ x ++ y ++ ign
  | .ldI nnn => 0xA#4 ++ nnn
  | .jpV0 nnn => 0xB#4 ++ nnn
  | .rnd x nn => 0xC#4 ++ x ++ nn
  | .drw x y n => 0xD#4 ++ x ++ y ++ n
  | .skp x ign => 0xE#4 ++ x ++ ign ++ 0xE#4
  | .sknp x ign => 0xE#4 ++ x ++ ign ++ 0x1#4
  | .ldVxDt x => 0xF#4 ++ x ++ 0x07#8
  | .ldVxK x => 0xF#4 ++ x ++ 0x0A#8
  | .ldDtVx x => 0xF#4 ++ x ++ 0x15#8
  | .ldStVx x => 0xF#4 ++ x ++ 0x18#8
  | .addI x => 0xF#4 ++ x ++ 0x1E#8
  | .ldF x => 0xF#4 ++ x ++ 0x29#8
  | .ldB x => 0xF#4 ++ x ++ 0x33#8
  | .ldMemVx x => 0xF#4 ++ x ++ 0x55#8
  | .ldVxMem x => 0xF#4 ++ x ++ 0x65#8
  | .nop w => w

/-! ### The opcode table as data -/

/-- The row of opcode_table.json an instruction belongs to. -/
def mnemonicOf : Instr → Mnemonic
  | .cls _ => .cls
  | .ret _ => .ret
  | .jp _ => .jp
  | .call _ => .call
  | .seImm _ _ => .seImm
  | .sneImm _ _ => .sneImm
  | .seReg _ _ _ => .seReg
  | .ldImm _ _ => .ldImm
  | .addImm _ _ => .addImm
  | .ldReg _ _ => .ldReg
  | .orReg _ _ => .orReg
  | .andReg _ _ => .andReg
  | .xorReg _ _ => .xorReg
  | .addReg _ _ => .addReg
  | .sub _ _ => .sub
  | .shr _ _ => .shr
  | .subn _ _ => .subn
  | .shl _ _ => .shl
  | .sneReg _ _ _ => .sneReg
  | .ldI _ => .ldI
  | .jpV0 _ => .jpV0
  | .rnd _ _ => .rnd
  | .drw _ _ _ => .drw
  | .skp _ _ => .skp
  | .sknp _ _ => .sknp
  | .ldVxDt _ => .ldVxDt
  | .ldVxK _ => .ldVxK
  | .ldDtVx _ => .ldDtVx
  | .ldStVx _ => .ldStVx
  | .addI _ => .addI
  | .ldF _ => .ldF
  | .ldB _ => .ldB
  | .ldMemVx _ => .ldMemVx
  | .ldVxMem _ => .ldVxMem
  | .nop _ => .nop

/-- A row of opcode_table.json: a word belongs to it when `w AND mask = pattern` (spec 30 R87). -/
structure OpcodeRow where
  name : Mnemonic
  mask : Word
  pattern : Word
  deriving DecidableEq, Repr

/-- Whether a word belongs to a row (spec 30 R87). -/
def OpcodeRow.matchesWord (r : OpcodeRow) (w : Word) : Bool := w &&& r.mask == r.pattern

/-- opcode_table.json's rows in its order, but for NOP's, which is the fallback (spec 30 R87). -/
def opcodeTable : List OpcodeRow :=
  [ ⟨.cls, 0xF00F, 0x0000⟩
  , ⟨.ret, 0xF00F, 0x000E⟩
  , ⟨.jp, 0xF000, 0x1000⟩
  , ⟨.call, 0xF000, 0x2000⟩
  , ⟨.seImm, 0xF000, 0x3000⟩
  , ⟨.sneImm, 0xF000, 0x4000⟩
  , ⟨.seReg, 0xF000, 0x5000⟩
  , ⟨.ldImm, 0xF000, 0x6000⟩
  , ⟨.addImm, 0xF000, 0x7000⟩
  , ⟨.ldReg, 0xF00F, 0x8000⟩
  , ⟨.orReg, 0xF00F, 0x8001⟩
  , ⟨.andReg, 0xF00F, 0x8002⟩
  , ⟨.xorReg, 0xF00F, 0x8003⟩
  , ⟨.addReg, 0xF00F, 0x8004⟩
  , ⟨.sub, 0xF00F, 0x8005⟩
  , ⟨.shr, 0xF00F, 0x8006⟩
  , ⟨.subn, 0xF00F, 0x8007⟩
  , ⟨.shl, 0xF00F, 0x800E⟩
  , ⟨.sneReg, 0xF000, 0x9000⟩
  , ⟨.ldI, 0xF000, 0xA000⟩
  , ⟨.jpV0, 0xF000, 0xB000⟩
  , ⟨.rnd, 0xF000, 0xC000⟩
  , ⟨.drw, 0xF000, 0xD000⟩
  , ⟨.skp, 0xF00F, 0xE00E⟩
  , ⟨.sknp, 0xF00F, 0xE001⟩
  , ⟨.ldVxDt, 0xF0FF, 0xF007⟩
  , ⟨.ldVxK, 0xF0FF, 0xF00A⟩
  , ⟨.ldDtVx, 0xF0FF, 0xF015⟩
  , ⟨.ldStVx, 0xF0FF, 0xF018⟩
  , ⟨.addI, 0xF0FF, 0xF01E⟩
  , ⟨.ldF, 0xF0FF, 0xF029⟩
  , ⟨.ldB, 0xF0FF, 0xF033⟩
  , ⟨.ldMemVx, 0xF0FF, 0xF055⟩
  , ⟨.ldVxMem, 0xF0FF, 0xF065⟩ ]

/-- The row a word belongs to by the table alone: the first that matches, else NOP (spec 30 R87). -/
def tableMnemonic (w : Word) : Mnemonic :=
  match opcodeTable.find? (fun r => r.matchesWord w) with
  | some r => r.name
  | none => .nop

/-! ### The host's question -/

/-- The bytes of an instruction whose bits opcode_table.json numbers as `w`, as the memory holds them: one word, high
byte first (spec 30 R70, 20 R52). A row with more than 16 bits does not exist. -/
def tableBytes (nbits w : Nat) : List Byte :=
  if nbits ≤ 16 then
    let word := BitVec.ofNat 16 (w % 2 ^ nbits)
    [hiByte word, loByte word]
  else []

/-- What the decoder reads from a table row's word under the default STRICT_DECODE = false. -/
def decodeTableWord (nbits w : Nat) : Option Instr :=
  match decodeBytes Config.default.strictDecode (tableBytes nbits w) with
  | .ok (i, _) => some i
  | .error _ => none

end Sys2Proof
end

