-- ==== Sys2Proof/Machine/State.lean ====
section
/-! DEFINITION. The machine's state as plain data (spec 10), the fault causes (spec 60 R177), the model's two ways of
stopping, and the state after construction (spec 70 R200, R201). -/

namespace Sys2Proof.Machine

/-- The 4096-byte memory (spec 10 R31, 20 R50): (address, byte) pairs, addresses strictly rising, none equal to what
the address holds after reset; an unlisted address holds its reset byte (log entry 12). -/
abbrev Memory := List Host.Cell

/-- The 64 x 32 frame buffer (spec 10 R32): the indexes `y*64+x` of the cells that are on, strictly rising, each below
2048 (log entry 13). -/
abbrev Frame := List Nat

/-- The fault causes, complete (spec 60 R177). Taking one is a NEXT state (spec 60 R176), never a stop of the model. -/
inductive FaultCause where
  /-- Code 1: the unresolved address, above 0xFFF. Raised by the fetch, DRW, LD B, LD [I], LD Vx,[I]. -/
  | memOutOfRange (a : Nat)
  /-- Code 2: the linear pixel index, above 2047. Raised by DRW. -/
  | frameOutOfRange (p : Nat)
  /-- Code 3: the register's value, above 15. Raised by SKP and SKNP. -/
  | keyOutOfRange (v : Byte)
  /-- Code 4: `sp`. Raised by CALL. -/
  | stackOverflow (sp : Byte)
  /-- Code 5: `sp`. Raised by RET. -/
  | stackUnderflow (sp : Byte)
  deriving DecidableEq, Repr

/-- The one way a step stops in a model fault. The spec's own faults are not here: they are next states. -/
inductive Fault where
  /-- Raised by RET when `sp` is above 16 and STACK_POLICY is Fault or Clamp, so that there is no slot `sp - 1`. The
  spec gives `sp` above 16 no behaviour (spec 91, 10_state.md) and no run reaches it. Safe: nothing is proved of it. -/
  | stackPointerIllegal (sp : Byte)
  deriving DecidableEq, Repr

/-- The ways a step is refused. -/
inductive Refusal where
  /-- For an arm of `exec` without a meaning; no arm is left with it. Safe. -/
  | notModelled (mnemonic : String)
  /-- Raised by the step when STRICT_DECODE = true and the fetched word `w` is an alias (spec 30 R82). Safe: the spec
  says that the step has no meaning for it. -/
  | strictAlias (w : Word)
  deriving DecidableEq, Repr

/-- The machine state (spec 10). -/
structure State where
  /-- The parameters of spec 00 R6. The model's own field: fixed for a run, no step writes it (log entry 1). -/
  cfg : Config
  /-- V0 to VF; VF is the flag register (spec 10 R20, R22). -/
  v : Vector Byte 16
  /-- The program counter (spec 10 R23). -/
  pc : Word
  /-- The index register I (spec 10 R26). -/
  index : Word
  /-- The return stack (spec 10 R27). -/
  stack : Vector Word 16
  /-- The stack pointer, counting the entries used (spec 10 R28). -/
  sp : Byte
  /-- The delay timer DT (spec 10 R29). -/
  dt : Byte
  /-- The sound timer ST (spec 10 R30). -/
  st : Byte
  /-- The memory (spec 10 R31). -/
  mem : Memory
  /-- The frame buffer (spec 10 R32). -/
  fb : Frame
  /-- The keypad, true = pressed (spec 10 R33). -/
  key : Vector Bool 16
  /-- The current instruction, scratch of one step (spec 10 R34; log entry 4). -/
  w : Word
  /-- The fault register (spec 10 R35). -/
  fault : Option FaultCause
  /-- How many random bytes the host has answered. The model's own field (spec 60 R188; log entry 5). -/
  draws : Nat
  /-- How many steps have completed and left `w` without a value. The model's own field (spec 10 R34; log entry 4). -/
  lapses : Nat
  deriving DecidableEq, Repr

/-- Construction, which is the only reset (spec 70 R200, R201). DESIGN CHOICE: the values of `w` and
`lapses` (log entry 4) and `draws` (log entry 5); the zeros of V, I, stack, DT, ST, frame buffer and keypad are the spec's decision D5
(log entry 3). -/
def State.construct (cfg : Config) : State where
  cfg := cfg
  v := Vector.replicate 16 0
  pc := 0x200
  index := 0
  stack := Vector.replicate 16 0
  sp := 0
  dt := 0
  st := 0
  mem := []
  fb := []
  key := Vector.replicate 16 false
  w := 0
  fault := none
  draws := 0
  lapses := 0

/-- The machine right after reset, at the default parameters of spec 00 R6. -/
def State.reset : State := State.construct Config.default

end Sys2Proof.Machine
end

