-- ==== Sys2Proof/Machine/Ops.lean ====
section
/-! DEFINITION. The named operations over the state: registers, memory and its controller (spec 20 R57), frame buffer,
keypad, stack (spec 41 R100), and raising a fault (spec 60 R176). -/

namespace Sys2Proof.Machine

/-- What a step answers. -/
abbrev StepResult := Host.Outcome State Fault Refusal

/-! ### Registers -/

/-- VF, the flag register (spec 10 R22). -/
def regVF : Nibble := 0xF

/-- `x[r]`: read general register Vr (spec 00 R9, 10 R20). -/
def State.getReg (s : State) (r : Nibble) : Byte := s.v[r.toNat]'r.isLt

/-- `x[r] <- b` (spec 00 R9, 10 R20). -/
def State.setReg (s : State) (r : Nibble) (b : Byte) : State := { s with v := s.v.set r.toNat b r.isLt }

/-- `pc <- a`. -/
def State.setPc (s : State) (a : Word) : State := { s with pc := a }

/-- `I <- a`. -/
def State.setIndex (s : State) (a : Word) : State := { s with index := a }

/-- `DT <- b`. -/
def State.setDt (s : State) (b : Byte) : State := { s with dt := b }

/-- `ST <- b`. -/
def State.setSt (s : State) (b : Byte) : State := { s with st := b }

/-- Writes the scratch register `w` (spec 10 R34, 40 R91). -/
def State.setWord (s : State) (w : Word) : State := { s with w := w }

/-- Replaces the frame buffer. -/
def State.setFb (s : State) (f : Frame) : State := { s with fb := f }

/-- Replaces the memory. -/
def State.setMem (s : State) (m : Memory) : State := { s with mem := m }

/-- Counts one answered request on the random-byte port (spec 60 R188). -/
def State.countDraw (s : State) : State := { s with draws := s.draws + 1 }

/-- The end of the one step for which the scratch word is held (spec 10 R34): `w` is left with a free value
(log entry 4). -/
def State.lapseWord (s : State) : State := { s with w := Config.lapsedWord s.lapses, lapses := s.lapses + 1 }

/-! ### Faults -/

/-- TAKING A FAULT (spec 60 R176): the fault register records the cause and nothing else changes. Applied to the state
before the step it gives the state after it. -/
def State.raise (s : State) (c : FaultCause) : State := { s with fault := some c }

/-- The code of a cause (spec 60 R177). -/
def FaultCause.code : FaultCause → Nat
  | .memOutOfRange _ => 1
  | .frameOutOfRange _ => 2
  | .keyOutOfRange _ => 3
  | .stackOverflow _ => 4
  | .stackUnderflow _ => 5

/-- The end of a handler that can raise: the state it made, or, all or nothing, the state it began with and the fault
(spec 60 R176). -/
def finish (s : State) (r : Except FaultCause State) : StepResult :=
  match r with
  | .ok t => .next t
  | .error c => .next (s.raise c)

/-! ### Memory -/

/-- What an address holds after reset, and so what an unlisted address reads as: GLYPH_DATA in the glyph region, 0
elsewhere (spec 20 R55, R58). -/
def resetByte (cfg : Config) (a : Nat) : Byte :=
  if h : Config.glyphBase ≤ a ∧ a < Config.glyphBase + 80 then cfg.glyphData[a - Config.glyphBase]'(by omega) else 0

/-- The byte at an address, `base` giving what an unlisted address holds. -/
def Memory.read (base : Nat → Byte) : Memory → Nat → Byte
  | [], a => base a
  | (k, b) :: m, a => if a = k then b else Memory.read base m a

/-- Writes a byte and keeps the canonical form: writing the byte an unlisted address holds removes the entry. -/
def Memory.write (base : Nat → Byte) : Memory → Nat → Byte → Memory
  | [], a, b => if b = base a then [] else [(a, b)]
  | (k, c) :: m, a, b =>
    if a < k then (if b = base a then (k, c) :: m else (a, b) :: (k, c) :: m)
    else if a = k then (if b = base a then m else (a, b) :: m)
    else (k, c) :: Memory.write base m a b

/-- The canonical form of a memory: addresses strictly rising and below 4096, no entry that could be left out. -/
abbrev Memory.wf (base : Nat → Byte) (m : Memory) : Prop :=
  m.Pairwise (fun p q => p.1 < q.1) ∧ ∀ p ∈ m, p.1 < Config.memSize ∧ p.2 ≠ base p.1

/-- Resolve(a) of the memory controller (spec 20 R57). -/
def resolve (policy : BoundsPolicy) (a : Nat) : Except FaultCause Nat :=
  if a ≤ 0xFFF then .ok a
  else match policy with
    | .fault => .error (.memOutOfRange a)
    | .wrap => .ok (a % 4096)
    | .clamp => .ok 0xFFF

/-- The byte memory holds at a resolved address. -/
def State.byteAt (s : State) (a : Nat) : Byte := s.mem.read (resetByte s.cfg) a

/-- Stores a byte at a resolved address. -/
def State.setByte (s : State) (a : Nat) (b : Byte) : State := s.setMem (s.mem.write (resetByte s.cfg) a b)

/-- MemRead(a, 1) (spec 20 R57). -/
def State.memRead (s : State) (a : Nat) : Except FaultCause Byte :=
  match resolve s.cfg.oob a with
  | .ok k => .ok (s.byteAt k)
  | .error c => .error c

/-- MemWrite(a, 1, b) (spec 20 R57). -/
def State.memWrite (s : State) (a : Nat) (b : Byte) : Except FaultCause State :=
  match resolve s.cfg.oob a with
  | .ok k => .ok (s.setByte k b)
  | .error c => .error c

/-! ### Frame buffer -/

/-- `fb[p]` (spec 00 R9, 10 R32). -/
def Frame.isOn : Frame → Nat → Bool
  | [], _ => false
  | q :: f, p => p == q || Frame.isOn f p

/-- `fb[p] <- not fb[p]`, keeping the list of on cells strictly rising (spec 44 R156). -/
def Frame.toggle : Frame → Nat → Frame
  | [], p => [p]
  | q :: f, p => if p < q then p :: q :: f else if p = q then f else q :: Frame.toggle f p

/-- The canonical form of a frame buffer: strictly rising indexes of its 2048 cells. -/
abbrev Frame.wf (f : Frame) : Prop := f.Pairwise (· < ·) ∧ ∀ p ∈ f, p < 2048

/-- PixelIndex(px, py) (spec 44 R157); `none` is its `skip`. -/
def pixelIndex (cfg : Config) (px py : Nat) : Except FaultCause (Option Nat) :=
  match cfg.drawEdge with
  | .linear =>
    if py * 64 + px ≤ 2047 then .ok (some (py * 64 + px))
    else match cfg.oob with
      | .fault => .error (.frameOutOfRange (py * 64 + px))
      | .wrap => .ok (some ((py * 64 + px) % 2048))
      | .clamp => .ok (some 2047)
  | .clip => if 64 ≤ px ∨ 32 ≤ py then .ok none else .ok (some (py * 64 + px))
  | .wrap => .ok (some (py % 32 * 64 + px % 64))

/-! ### Keypad -/

/-- `key[k]` (spec 00 R9, 10 R33). -/
def State.keyDown (s : State) (k : Nibble) : Bool := s.key[k.toNat]'k.isLt

/-- KeyIndex(v) (spec 41 R101). -/
def keyIndex (policy : BoundsPolicy) (v : Byte) : Except FaultCause Nibble :=
  if v.toNat ≤ 15 then .ok (v.setWidth 4)
  else match policy with
    | .fault => .error (.keyOutOfRange v)
    | .wrap => .ok (BitVec.ofNat 4 (v.toNat % 16))
    | .clamp => .ok 15

/-- The lowest pressed key, if any: the ascending scan of spec 45 R169. -/
def State.firstKey (s : State) : Option Nat :=
  (List.range 16).find? (fun k => s.keyDown (BitVec.ofNat 4 k))

/-! ### Stack -/

/-- `stack[k] <- a; sp <- n`. -/
def State.setSlot (s : State) (k : Fin 16) (a : Word) (n : Byte) : State :=
  { s with stack := s.stack.set k.val a k.isLt, sp := n }

/-- Push(a) (spec 41 R100). -/
def State.push (s : State) (a : Word) : Except FaultCause State :=
  match s.cfg.stackPolicy with
  | .fault =>
    if h : s.sp.toNat < 16 then .ok (s.setSlot ⟨s.sp.toNat, h⟩ a (s.sp + 1)) else .error (.stackOverflow s.sp)
  | .wrap => .ok (s.setSlot (Fin.ofNat 16 (s.sp.toNat % 16)) a (BitVec.ofNat 8 ((s.sp.toNat + 1) % 16)))
  | .clamp =>
    if h : s.sp.toNat < 16 then .ok (s.setSlot ⟨s.sp.toNat, h⟩ a (s.sp + 1)) else .ok (s.setSlot 15 a s.sp)

/-- The slot Pop() takes (spec 41 R100). Under every policy `sp` ends at the number of that slot: Fault and Clamp take
slot `sp - 1`, Wrap slot `(sp + 15) mod 16`, and Clamp with `sp = 0` slot 0. -/
def State.popSlot (s : State) : Except FaultCause Nat :=
  match s.cfg.stackPolicy with
  | .fault => if s.sp = 0 then .error (.stackUnderflow s.sp) else .ok (s.sp.toNat - 1)
  | .wrap => .ok ((s.sp.toNat + 15) % 16)
  | .clamp => .ok (s.sp.toNat - 1)

end Sys2Proof.Machine
end

