-- ==== Sys2Proof/Machine/Cycle.lean ====
section
/-! DEFINITION. The step cycle around a handler (spec 40): fetch, pc increment, dispatch, tick, and the all-or-nothing
end of a step that raised a fault. -/

namespace Sys2Proof.Machine

/-- The fetch: two bytes, big-endian, the one at `pc` resolved first (spec 40 R91). -/
def State.fetch (s : State) : Except FaultCause Word := do
  let hi ← s.memRead s.pc.toNat
  let lo ← s.memRead (s.pc.toNat + 1)
  pure (joinBytes hi lo)

/-- `pc <- (pc + 2) mod 2^16` (spec 40 R92). -/
def State.advance (s : State) : State := s.setPc (s.pc + 2)

/-- One timer's tick: down by 1 unless 0 (spec 40 R95). -/
def tickTimer (t : Byte) : Byte := if t = 0 then 0 else t - 1

/-- The tick of both timers (spec 40 R95). -/
def State.tick (s : State) : State := (s.setDt (tickTimer s.dt)).setSt (tickTimer s.st)

/-- The state after a step that began in `s` and whose handler ended in `t`: ticked and the scratch word let go, or,
where the handler raised a fault, `s` with the fault recorded and nothing else changed (spec 60 R176). -/
def State.commit (s t : State) : State :=
  match t.fault with
  | none => t.tick.lapseWord
  | some c => s.raise c

/-- `commit` on what a handler answers. -/
def commitResult (s : State) (r : StepResult) : StepResult :=
  match r with
  | .next t => .next (s.commit t)
  | .fault f => .fault f
  | .refused q => .refused q

/-- Step() of spec 40 R90, with the handlers as `run`. A faulted machine stands still (spec 40 R96); under
STRICT_DECODE an alias is refused (spec 30 R82). -/
def cycle (run : Instr → State → StepResult) (s : State) : StepResult :=
  match s.fault with
  | some _ => .next s
  | none =>
    match s.fetch with
    | .error c => .next (s.raise c)
    | .ok w =>
      match decodeWord s.cfg.strictDecode w with
      | none => .refused (.strictAlias w)
      | some i => commitResult s (run i (s.setWord w).advance)

/-- Stores a byte where the memory controller resolves an address to, if anywhere. -/
def State.placeByte (s : State) (a : Nat) (b : Byte) : State :=
  match s.memWrite a b with
  | .ok t => t
  | .error _ => s

/-- Stores bytes at ascending addresses from `a`. -/
def State.placeBytes (s : State) (a : Nat) : List Byte → State
  | [] => s
  | b :: bs => State.placeBytes (s.placeByte a b) (a + 1) bs

end Sys2Proof.Machine
end

