-- ==== Sys2Proof/Machine/Flags.lean ====
section
/-! DEFINITION. The flag computations: every value VF takes as a flag (spec 10 R22, 42 R133), and the one way a result
and its flag are written (spec 00 R10). -/

namespace Sys2Proof.Machine

/-- A flag as the byte VF holds: 1 or 0. -/
def flagByte (b : Bool) : Byte := if b then 1 else 0

/-- Carry: 1 if the mathematical sum exceeds 255 (spec 42 R126). -/
def carryFlag (a b : Byte) : Byte := flagByte (255 < a.toNat + b.toNat)

/-- No borrow, strict: 1 if the minuend is greater (spec 42 R127, R129; conflict C4). -/
def greaterFlag (a b : Byte) : Byte := flagByte (b.toNat < a.toNat)

/-- Bit 0 of a shift's source (spec 42 R128). -/
def lowBitFlag (a : Byte) : Byte := flagByte (a.getLsbD 0)

/-- Bit 7 of a shift's source (spec 42 R130). -/
def highBitFlag (a : Byte) : Byte := flagByte (a.getLsbD 7)

/-- Writes the result, then VF, which is written last: where the destination is VF it ends holding the flag
(spec 00 R10). -/
def State.setRegFlag (s : State) (x : Nibble) (result flag : Byte) : State := (s.setReg x result).setReg regVF flag

end Sys2Proof.Machine
end

