-- ==== Sys2Proof/Machine/Operands.lean ====
section
/-! DEFINITION. The operand forms (spec 43 R146, 30 R73): extended addresses, NNN + V0, I + k, the shift's source
register, sprite coordinates. -/

namespace Sys2Proof.Machine

/-- `zext_16(NNN)` (spec 30 R73). -/
def extendAddr (nnn : Addr) : Word := nnn.setWidth 16

/-- `zext_16(NNN) + x[0]`, the target of Jump with offset (spec 41 R105). -/
def State.offsetTarget (s : State) (nnn : Addr) : Word := extendAddr nnn + (s.getReg 0).setWidth 16

/-- `I + k` as an unbounded address (spec 20 R57; decision D8). -/
def State.indexed (s : State) (k : Nat) : Nat := s.index.toNat + k

/-- The source of a shift under SHIFT_SOURCE (spec 42 R128, R130). -/
def State.shiftOperand (s : State) (x y : Nibble) : Byte :=
  match s.cfg.shiftSource with
  | .vx => s.getReg x
  | .vy => s.getReg y

/-- `x[X] mod 64`, the sprite's first column (spec 44 R156). -/
def State.spriteX (s : State) (x : Nibble) : Nat := (s.getReg x).toNat % 64

/-- `x[Y] mod 32`, the sprite's first row (spec 44 R156). -/
def State.spriteY (s : State) (y : Nibble) : Nat := (s.getReg y).toNat % 32

/-- `GLYPH_BASE + 5 * v` (spec 43 R142). -/
def glyphAddr (v : Byte) : Word := BitVec.ofNat 16 (Config.glyphBase + 5 * v.toNat)

/-- The decimal digits of a byte: hundreds, tens, ones (spec 43 R143). -/
def hundreds (v : Byte) : Byte := BitVec.ofNat 8 (v.toNat / 100)

def tens (v : Byte) : Byte := BitVec.ofNat 8 (v.toNat / 10 % 10)

def ones (v : Byte) : Byte := BitVec.ofNat 8 (v.toNat % 10)

end Sys2Proof.Machine
end

