-- ==== Sys2Proof/Machine/Alu.lean ====
section
/-! DEFINITION. Register loads, the ALU and Random AND (spec 42). Every operand is read before anything is written, and
VF as a flag is written last (spec 00 R10). -/

namespace Sys2Proof.Machine

/-- LD Vx, byte (spec 42 R120). -/
def execLdImm (x : Nibble) (nn : Byte) (s : State) : StepResult := .next (s.setReg x nn)

/-- ADD Vx, byte: no flag (spec 42 R121). -/
def execAddImm (x : Nibble) (nn : Byte) (s : State) : StepResult := .next (s.setReg x (s.getReg x + nn))

/-- LD Vx, Vy (spec 42 R122). -/
def execLdReg (x y : Nibble) (s : State) : StepResult := .next (s.setReg x (s.getReg y))

/-- OR Vx, Vy (spec 42 R123). -/
def execOr (x y : Nibble) (s : State) : StepResult := .next (s.setReg x (s.getReg x ||| s.getReg y))

/-- AND Vx, Vy (spec 42 R124). -/
def execAnd (x y : Nibble) (s : State) : StepResult := .next (s.setReg x (s.getReg x &&& s.getReg y))

/-- XOR Vx, Vy (spec 42 R125). -/
def execXor (x y : Nibble) (s : State) : StepResult := .next (s.setReg x (s.getReg x ^^^ s.getReg y))

/-- ADD Vx, Vy (spec 42 R126). -/
def execAddReg (x y : Nibble) (s : State) : StepResult :=
  .next (s.setRegFlag x (s.getReg x + s.getReg y) (carryFlag (s.getReg x) (s.getReg y)))

/-- SUB Vx, Vy: X - Y (spec 42 R127). -/
def execSub (x y : Nibble) (s : State) : StepResult :=
  .next (s.setRegFlag x (s.getReg x - s.getReg y) (greaterFlag (s.getReg x) (s.getReg y)))

/-- SHR Vx, Vy (spec 42 R128). -/
def execShr (x y : Nibble) (s : State) : StepResult :=
  .next (s.setRegFlag x (s.shiftOperand x y >>> 1) (lowBitFlag (s.shiftOperand x y)))

/-- SUBN Vx, Vy: Y - X (spec 42 R129). -/
def execSubn (x y : Nibble) (s : State) : StepResult :=
  .next (s.setRegFlag x (s.getReg y - s.getReg x) (greaterFlag (s.getReg y) (s.getReg x)))

/-- SHL Vx, Vy (spec 42 R130). -/
def execShl (x y : Nibble) (s : State) : StepResult :=
  .next (s.setRegFlag x (s.shiftOperand x y <<< 1) (highBitFlag (s.shiftOperand x y)))

/-- RND Vx, byte (spec 42 R131): asks for exactly one byte, which is a free value (log entry 5). -/
def execRnd (x : Nibble) (nn : Byte) (s : State) : StepResult :=
  .next (s.countDraw.setReg x (Config.randomByte s.draws &&& nn))

end Sys2Proof.Machine
end

