-- ==== Sys2Proof/Machine/Control.lean ====
section
/-! DEFINITION. Control flow and the no-op (spec 41, 40 R94). A meaning is the handler of spec 40 R90: on entry `pc` is
already the address after the instruction (spec 40 R92), and the tick comes after it. -/

namespace Sys2Proof.Machine

/-- A skip: 2 more onto `pc` when the condition holds (spec 41 R106 to R111). -/
def State.skipIf (s : State) (condition : Bool) : State := if condition then s.setPc (s.pc + 2) else s

/-- NOP (spec 40 R94). -/
def execNop (s : State) : StepResult := .next s

/-- RET: `pc <- Pop()` (spec 41 R102, R100). A popped slot keeps its value. -/
def execRet (s : State) : StepResult :=
  match s.popSlot with
  | .error c => .next (s.raise c)
  | .ok k =>
    if h : k < 16 then .next { s with sp := BitVec.ofNat 8 k, pc := s.stack[k] }
    else .fault (.stackPointerIllegal s.sp)

/-- JP addr (spec 41 R103). -/
def execJp (nnn : Addr) (s : State) : StepResult := .next (s.setPc (extendAddr nnn))

/-- CALL addr: `Push(pc); pc <- zext_16(NNN)` (spec 41 R104). -/
def execCall (nnn : Addr) (s : State) : StepResult :=
  finish s (do
    let t ← s.push s.pc
    pure (t.setPc (extendAddr nnn)))

/-- JP V0, addr (spec 41 R105). -/
def execJpV0 (nnn : Addr) (s : State) : StepResult := .next (s.setPc (s.offsetTarget nnn))

/-- SE Vx, byte (spec 41 R106). -/
def execSeImm (x : Nibble) (nn : Byte) (s : State) : StepResult := .next (s.skipIf (s.getReg x == nn))

/-- SNE Vx, byte (spec 41 R107). -/
def execSneImm (x : Nibble) (nn : Byte) (s : State) : StepResult := .next (s.skipIf (s.getReg x != nn))

/-- SE Vx, Vy (spec 41 R108). -/
def execSeReg (x y : Nibble) (s : State) : StepResult := .next (s.skipIf (s.getReg x == s.getReg y))

/-- SNE Vx, Vy (spec 41 R109). -/
def execSneReg (x y : Nibble) (s : State) : StepResult := .next (s.skipIf (s.getReg x != s.getReg y))

/-- SKP Vx (spec 41 R110, R101). -/
def execSkp (x : Nibble) (s : State) : StepResult :=
  finish s (do
    let k ← keyIndex s.cfg.oob (s.getReg x)
    pure (s.skipIf (s.keyDown k)))

/-- SKNP Vx (spec 41 R111, R101). -/
def execSknp (x : Nibble) (s : State) : StepResult :=
  finish s (do
    let k ← keyIndex s.cfg.oob (s.getReg x)
    pure (s.skipIf (!s.keyDown k)))

end Sys2Proof.Machine
end

