-- ==== Sys2Proof/Machine/Display.lean ====
section
/-! DEFINITION. The display instructions (spec 44). A sprite is drawn on a canvas, a copy of the frame buffer and the
collision so far, which becomes the frame buffer and VF when no pixel and no row raised a fault. -/

namespace Sys2Proof.Machine

/-- The frame buffer while a sprite is being drawn, and whether a cell went from on to off so far. -/
structure Canvas where
  fb : Frame
  hit : Bool
  deriving DecidableEq, Repr

/-- Toggles a cell and records a collision (spec 44 R156). -/
def Canvas.plot (d : Canvas) (p : Nat) : Canvas := { fb := d.fb.toggle p, hit := d.hit || d.fb.isOn p }

/-- Column `c` of a sprite row: bit `7 - c` of its byte, the leftmost pixel first. A zero bit touches no cell
(spec 44 R156; decision D17). -/
def drawColumn (cfg : Config) (b : Byte) (x0 py : Nat) (d : Canvas) (c : Nat) : Except FaultCause Canvas :=
  if b.getLsbD (7 - c) then
    match pixelIndex cfg (x0 + c) py with
    | .ok (some p) => .ok (d.plot p)
    | .ok none => .ok d
    | .error e => .error e
  else .ok d

/-- Row `r` of a sprite: its byte is read, then its eight columns are drawn (spec 44 R156, 60 R178). -/
def drawRow (s : State) (x0 y0 : Nat) (d : Canvas) (r : Nat) : Except FaultCause Canvas := do
  let b ← s.memRead (s.indexed r)
  (List.range 8).foldlM (drawColumn s.cfg b x0 (y0 + r)) d

/-- The sprite of `n` rows at column `x0` and row `y0` (spec 44 R156). -/
def drawSprite (s : State) (x0 y0 n : Nat) : Except FaultCause Canvas :=
  (List.range n).foldlM (drawRow s x0 y0) { fb := s.fb, hit := false }

/-- CLS (spec 44 R155). -/
def execCls (s : State) : StepResult := .next (s.setFb [])

/-- DRW Vx, Vy, nibble (spec 44 R156): VF, the collision flag, is written last. -/
def execDrw (x y n : Nibble) (s : State) : StepResult :=
  finish s (do
    let d ← drawSprite s (s.spriteX x) (s.spriteY y) n.toNat
    pure ((s.setFb d.fb).setReg regVF (flagByte d.hit)))

end Sys2Proof.Machine
end

