-- ==== Sys2Proof/Machine/Index.lean ====
section
/-! DEFINITION. The index register and the instructions that reach memory through it (spec 43). Bytes are stored and
loaded in ascending order, and the first address out of range ends the step with nothing done (spec 60 R176, R178). -/

namespace Sys2Proof.Machine

/-- LD I, addr (spec 43 R140). -/
def execLdI (nnn : Addr) (s : State) : StepResult := .next (s.setIndex (extendAddr nnn))

/-- ADD I, Vx: no flag (spec 43 R141). -/
def execAddI (x : Nibble) (s : State) : StepResult := .next (s.setIndex (s.index + (s.getReg x).setWidth 16))

/-- LD F, Vx: the whole 8-bit value, not masked (spec 43 R142; decision D16). -/
def execLdF (x : Nibble) (s : State) : StepResult := .next (s.setIndex (glyphAddr (s.getReg x)))

/-- LD B, Vx (spec 43 R143). -/
def execLdB (x : Nibble) (s : State) : StepResult :=
  finish s (do
    let t ← s.memWrite (s.indexed 0) (hundreds (s.getReg x))
    let t ← t.memWrite (s.indexed 1) (tens (s.getReg x))
    t.memWrite (s.indexed 2) (ones (s.getReg x)))

/-- One store of the block store: Vi to `I + i`. -/
def State.storeReg (t : State) (i : Nat) : Except FaultCause State :=
  t.memWrite (t.indexed i) (t.getReg (BitVec.ofNat 4 i))

/-- LD [I], Vx: V0 to VX (spec 43 R144). -/
def execLdMemVx (x : Nibble) (s : State) : StepResult :=
  finish s ((List.range (x.toNat + 1)).foldlM State.storeReg s)

/-- One load of the block load: the byte at `I + i` to Vi. -/
def State.loadReg (t : State) (i : Nat) : Except FaultCause State := do
  let b ← t.memRead (t.indexed i)
  pure (t.setReg (BitVec.ofNat 4 i) b)

/-- LD Vx, [I]: V0 to VX (spec 43 R145). -/
def execLdVxMem (x : Nibble) (s : State) : StepResult :=
  finish s ((List.range (x.toNat + 1)).foldlM State.loadReg s)

end Sys2Proof.Machine
end

