-- ==== Sys2Proof/Machine/Timers.lean ====
section
/-! DEFINITION. The timer instructions and Wait-for-key (spec 45). The tick is the step's, after the handler
(spec 40 R95), so a handler sees a timer as the previous step left it (spec 40 R97). -/

namespace Sys2Proof.Machine

/-- LD Vx, DT (spec 45 R165). -/
def execLdVxDt (x : Nibble) (s : State) : StepResult := .next (s.setReg x s.dt)

/-- LD Vx, K (spec 45 R169): the lowest pressed key, or back to this instruction. -/
def execLdVxK (x : Nibble) (s : State) : StepResult :=
  match s.firstKey with
  | some k => .next (s.setReg x (BitVec.ofNat 8 k))
  | none => .next (s.setPc (s.pc - 2))

/-- LD DT, Vx (spec 45 R166). -/
def execLdDtVx (x : Nibble) (s : State) : StepResult := .next (s.setDt (s.getReg x))

/-- LD ST, Vx (spec 45 R167). -/
def execLdStVx (x : Nibble) (s : State) : StepResult := .next (s.setSt (s.getReg x))

end Sys2Proof.Machine
end

