-- ==== Sys2Proof/Machine/Step.lean ====
section
/-! DEFINITION. The step (spec 40 R90) and the placing of an instruction where it fetches next. -/

namespace Sys2Proof.Machine

/-- One step of the core, the step port of spec 60 R191. -/
def step (s : State) : Host.Outcome State Fault Refusal := cycle exec s

/-- `s` with a table row's word stored where `step` fetches its next instruction: at `pc`, high byte first. -/
def State.withFetchWord (s : State) (nbits w : Nat) : State := s.placeBytes s.pc.toNat (tableBytes nbits w)

end Sys2Proof.Machine
end

