-- ==== Sys2Proof/Machine/Ports.lean ====
section
/-! DEFINITION. The host's ports, each used between two steps (spec 60 R185 to R190): program load, keypad, frame
buffer. The random-byte port is Config.randomByte, the step port is step. -/

namespace Sys2Proof.Machine

/-- Copies bytes verbatim into memory from address `a`. -/
def State.copyBytes (s : State) (a : Nat) : List Byte → State
  | [] => s
  | b :: bs => State.copyBytes (s.setByte a b) (a + 1) bs

/-- The program-load port (spec 60 R186): the image goes to PROGRAM_BASE; `none` is the rejection of an image longer
than MAX_IMAGE, which leaves the machine as it was (decision D9). -/
def State.loadImage (s : State) (image : List Byte) : Option State :=
  if image.length ≤ Config.maxImage then some (s.copyBytes Config.programBase image) else none

/-- The keypad port: sets or clears one key (spec 60 R187). -/
def State.setKey (s : State) (k : Nibble) (pressed : Bool) : State :=
  { s with key := s.key.set k.toNat pressed k.isLt }

/-- The frame-buffer port: what the host sees of cell `p` (spec 60 R190, 10 R32). -/
def State.frameWord (s : State) (p : Nat) : BitVec 32 := if s.fb.isOn p then s.cfg.onPattern else 0

/-- A move of the host between two steps (spec 60 R185, R195). Reading the frame buffer changes nothing and is no
move. -/
inductive HostMove where
  | load (image : List Byte)
  | key (k : Nibble) (pressed : Bool)
  deriving DecidableEq, Repr

/-- The state after a move of the host (spec 60 R186, R187). -/
def State.hostMove (s : State) : HostMove → State
  | .load image => (s.loadImage image).getD s
  | .key k pressed => s.setKey k pressed

end Sys2Proof.Machine
end

