-- ==== Sys2Proof/Safety.lean ====
section
/-! DEFINITION. The terms claims use: the invariant of the machine, what a safe run is (no fault recorded, spec 60 R194),
what an instruction leaves alone, and where a sprite lands. -/

namespace Sys2Proof.Machine

/-- The range of `sp` under each STACK_POLICY (spec 10 R28, R37). -/
def State.spLegal (s : State) : Prop :=
  match s.cfg.stackPolicy with
  | .wrap => s.sp.toNat ≤ 15
  | .fault => s.sp.toNat ≤ 16
  | .clamp => s.sp.toNat ≤ 16

/-- What every step keeps: memory and frame buffer in canonical form (so that each holds exactly the cells spec 10 R31
and R32 give it), and `sp` in its range (spec 10 R28). -/
structure State.Inv (s : State) : Prop where
  mem : s.mem.wf (resetByte s.cfg)
  fb : s.fb.wf
  sp : s.spLegal

/-- No fault is recorded: the premise of a claim about a run (spec 60 R194). -/
def State.Running (s : State) : Prop := s.fault = none

/-! ### What an instruction leaves alone -/

/-- Only general registers differ: every other field is as before, and so every byte of memory. -/
def OnlyRegs (s t : State) : Prop := t = { s with v := t.v } ∧ ∀ a, t.byteAt a = s.byteAt a

/-- Only the pc differs: every register, every byte of memory and every other field is as before. -/
def OnlyPc (s t : State) : Prop :=
  t = { s with pc := t.pc } ∧ (∀ r, t.getReg r = s.getReg r) ∧ ∀ a, t.byteAt a = s.byteAt a

/-- Only I differs: every register, every byte of memory and every other field is as before. -/
def OnlyIndex (s t : State) : Prop :=
  t = { s with index := t.index } ∧ (∀ r, t.getReg r = s.getReg r) ∧ ∀ a, t.byteAt a = s.byteAt a

/-- Register `x` holds `b`, and nothing else differs. -/
def SetsReg (s t : State) (x : Nibble) (b : Byte) : Prop :=
  t.getReg x = b ∧ (∀ r, r ≠ x → t.getReg r = s.getReg r) ∧ OnlyRegs s t

/-- VF holds the flag `f`, register `x` the result `b` unless it is VF, and nothing else differs (spec 00 R10). -/
def SetsRegAndFlag (s t : State) (x : Nibble) (b f : Byte) : Prop :=
  t.getReg 0xF = f ∧ (x ≠ 0xF → t.getReg x = b) ∧ (∀ r, r ≠ x → r ≠ 0xF → t.getReg r = s.getReg r) ∧ OnlyRegs s t

/-! ### A step and what it ran -/

/-- A step from `s` that fetched `w`, ran it and ended in `t` without a fault (spec 40 R95: it completed). -/
def Completes (s t : State) (w : Word) : Prop :=
  s.fault = none ∧ s.fetch = .ok w ∧ step s = .next t ∧ t.fault = none

/-- Whether a word is an alias: one of the words of spec 30 R81 whose ignored bits are not the canonical ones. The
model's choice that no no-op word is among them is log entry 7. -/
def AliasWord (w : Word) : Prop :=
  (∃ b, (decode w = .cls b ∨ decode w = .ret b) ∧ b ≠ 0x0E) ∨
  (∃ x y n, (decode w = .seReg x y n ∨ decode w = .sneReg x y n) ∧ n ≠ 0x0) ∨
  (∃ x n, decode w = .skp x n ∧ n ≠ 0x9) ∨ (∃ x n, decode w = .sknp x n ∧ n ≠ 0xA)

/-! ### Where a sprite lands -/

/-- Whether the bit of column `c`, row `r` of the sprite at I is set and lands on cell `p` (spec 44 R156, R157). -/
def State.spriteLands (s : State) (x y : Nibble) (p r c : Nat) : Bool :=
  match s.memRead (s.indexed r) with
  | .ok b => b.getLsbD (7 - c) && decide (pixelIndex s.cfg (s.spriteX x + c) (s.spriteY y + r) = .ok (some p))
  | .error _ => false

/-- How many pixels of the first `n` rows of the sprite land on cell `p`. -/
def State.spriteHits (s : State) (x y : Nibble) (n p : Nat) : Nat :=
  ((List.range n).map (fun r => (List.range 8).countP (fun c => s.spriteLands x y p r c))).sum

/-- The first `n` rows of the sprite can be drawn: each row's byte can be read, and each set pixel has a place or is
skipped. -/
def State.SpriteFits (s : State) (x y : Nibble) (n : Nat) : Prop :=
  ∀ r, r < n → ∃ b, s.memRead (s.indexed r) = .ok b ∧
    ∀ c, c < 8 → b.getLsbD (7 - c) = true → ∃ o, pixelIndex s.cfg (s.spriteX x + c) (s.spriteY y + r) = .ok o

end Sys2Proof.Machine
end

