-- ==== Sys2Proof/Certificates/Slice0/Obligations.lean ====
section
/-! DEFINITION. The statements for the provers, each from a numbered rule of spec/. Handler statements are about exec: on
entry the pc is already the address after the instruction (spec 40 R92) and the tick is the step's (spec 40 R95). -/

open Sys2Proof Sys2Proof.Machine

/-! ### Encoding (spec 30) -/

/-- A few words written out from the encodings of spec 30 R75 to R79, one for each family, and what they decode to. -/
def Obligations.SampleWordsDecode : Prop :=
  decode 0x00E0 = .cls 0x0E ∧ decode 0x00EE = .ret 0x0E ∧ decode 0x2300 = .call 0x300 ∧ decode 0x6A3F = .ldImm 0xA 0x3F ∧
  decode 0x8125 = .sub 0x1 0x2 ∧ decode 0xA2F0 = .ldI 0x2F0 ∧ decode 0xD125 = .drw 0x1 0x2 0x5 ∧
  decode 0xE5A1 = .sknp 0x5 0xA ∧ decode 0xF50A = .ldVxK 0x5 ∧ decode 0xF733 = .ldB 0x7 ∧ decode 0x8008 = .nop 0x8008

/-- Spec 30 R72, R87: decoding the word of any well-formed instruction gives it back, every operand at every value. -/
def Obligations.DecodeInvertsEncode : Prop :=
  ∀ i : Instr, i.wellFormed = true → decode (encode i) = i

/-- Spec 30 R74: every one of the 65536 words decodes, to a well-formed instruction whose word it is. -/
def Obligations.EveryWordDecodesAndEncodesBack : Prop :=
  ∀ w : Word, (decode w).wellFormed = true ∧ encode (decode w) = w

/-- Spec 30 R87: the decoder and the table of masks and patterns choose the same row, and no two rows overlap. -/
def Obligations.DecodeAgreesWithOpcodeTable : Prop :=
  (∀ w : Word, mnemonicOf (decode w) = tableMnemonic w) ∧
  ∀ w : Word, ∀ r ∈ opcodeTable, ∀ q ∈ opcodeTable, r.matchesWord w = true → q.matchesWord w = true → r = q

/-- Spec 30 R83: the no-op words are exactly these, and each runs as a no-op. -/
def Obligations.NoOpWordsAreExactlyTheListed : Prop :=
  (∀ w : Word, decode w = .nop w ↔
    (fieldG w = 0x0 ∧ fieldN w ≠ 0x0 ∧ fieldN w ≠ 0xE) ∨
    (fieldG w = 0x8 ∧ fieldN w ∈ [0x8#4, 0x9#4, 0xA#4, 0xB#4, 0xC#4, 0xD#4, 0xF#4]) ∨
    (fieldG w = 0xE ∧ fieldN w ≠ 0x1 ∧ fieldN w ≠ 0xE) ∨
    (fieldG w = 0xF ∧ fieldNN w ∉ [0x07#8, 0x0A#8, 0x15#8, 0x18#8, 0x1E#8, 0x29#8, 0x33#8, 0x55#8, 0x65#8])) ∧
  ∀ (w : Word) (s : State), decode w = .nop w → exec (decode w) s = .next s

/-- Spec 30 R81: in groups 0, 5, 9 and E every value of the ignored bits is the same instruction, to the same effect. -/
def Obligations.IgnoredBitsChangeNothing : Prop :=
  ∀ (b c : BitVec 8) (x y m n : Nibble) (s : State),
    (decode (0x0#4 ++ b ++ 0x0#4) = .cls b ∧ exec (.cls b) s = exec (.cls c) s) ∧
    (decode (0x0#4 ++ b ++ 0xE#4) = .ret b ∧ exec (.ret b) s = exec (.ret c) s) ∧
    (decode (0x5#4 ++ x ++ y ++ m) = .seReg x y m ∧ exec (.seReg x y m) s = exec (.seReg x y n) s) ∧
    (decode (0x9#4 ++ x ++ y ++ m) = .sneReg x y m ∧ exec (.sneReg x y m) s = exec (.sneReg x y n) s) ∧
    (decode (0xE#4 ++ x ++ m ++ 0xE#4) = .skp x m ∧ exec (.skp x m) s = exec (.skp x n) s) ∧
    (decode (0xE#4 ++ x ++ m ++ 0x1#4) = .sknp x m ∧ exec (.sknp x m) s = exec (.sknp x n) s)

/-- Spec 30 R82, with log entry 7's choice of the aliases: under STRICT_DECODE = true a fetched alias is refused; every
other word, and under false every word, runs as its instruction. -/
def Obligations.StrictDecodeRefusesAliasesOnly : Prop :=
  ∀ (s : State) (w : Word), s.fault = none → s.fetch = .ok w →
    (s.cfg.strictDecode = true → AliasWord w → step s = .refused (.strictAlias w)) ∧
    (s.cfg.strictDecode = false ∨ ¬AliasWord w →
      step s = commitResult s (exec (decode w) (s.setWord w).advance))

/-! ### The step (spec 40) -/

/-- Spec 40 R90: a step of a faulted machine does nothing; a fetch that raises ends it; otherwise it writes `w`, moves
the pc 2 on, runs the decoded instruction's handler and ticks both timers, or, where the handler raised, records the
fault and does nothing else. Nothing is said of `w` after the step, to which spec 10 R34 gives no value there. -/
def Obligations.StepRunsDecodedInstruction : Prop :=
  ∀ s : State,
    (s.fault ≠ none → step s = .next s) ∧
    (∀ c, s.fault = none → s.fetch = .error c → step s = .next { s with fault := some c }) ∧
    ∀ w i, s.fault = none → s.fetch = .ok w → decodeWord s.cfg.strictDecode w = some i →
      match exec i { s with w := w, pc := s.pc + 2 } with
        | .next t => (match t.fault with
            | none => ∃ u, step s = .next u ∧ u = { t with
                dt := if t.dt = 0 then 0 else t.dt - 1
                st := if t.st = 0 then 0 else t.st - 1
                w := u.w
                lapses := u.lapses }
            | some c => step s = .next { s with fault := some c })
        | .fault f => step s = .fault f
        | .refused q => step s = .refused q

/-- Spec 40 R91: the fetch is big-endian, and its two addresses are resolved separately, `pc` first. -/
def Obligations.FetchReadsTwoBytesBigEndian : Prop :=
  ∀ s : State,
    (s.pc.toNat ≤ 0xFFE → s.fetch = .ok (s.byteAt s.pc.toNat ++ s.byteAt (s.pc.toNat + 1))) ∧
    (s.cfg.oob = .fault → s.pc.toNat = 0xFFF → s.fetch = .error (.memOutOfRange 0x1000)) ∧
    (s.cfg.oob = .fault → 0xFFF < s.pc.toNat → s.fetch = .error (.memOutOfRange s.pc.toNat)) ∧
    (s.cfg.oob = .wrap →
      s.fetch = .ok (s.byteAt (s.pc.toNat % 4096) ++ s.byteAt ((s.pc.toNat + 1) % 4096))) ∧
    (s.cfg.oob = .clamp → 0xFFF ≤ s.pc.toNat → s.fetch = .ok (s.byteAt 0xFFF ++ s.byteAt 0xFFF))

/-- Spec 20 R52, R62: a word stored at the pc, high byte first, is the word the next fetch sees. -/
def Obligations.PlacedWordIsFetched : Prop :=
  ∀ (s : State) (w : Word), s.mem.wf (resetByte s.cfg) → s.pc.toNat ≤ 0xFFE →
    (s.withFetchWord 16 w.toNat).fetch = .ok w ∧
    ∀ a, a ≠ s.pc.toNat → a ≠ s.pc.toNat + 1 → (s.withFetchWord 16 w.toNat).byteAt a = s.byteAt a

/-- Spec 40 R96: a faulted machine stays as it is, for every number of steps. -/
def Obligations.FaultedMachineNeverChanges : Prop :=
  ∀ (n : Nat) (s : State), s.fault ≠ none → core.run n s = .next s

/-- Spec 60 R176: a step that raises changes nothing but the fault register, and nothing changes after it. -/
def Obligations.FaultingStepIsAllOrNothing : Prop :=
  ∀ (s t : State) (c : FaultCause), s.fault = none → step s = .next t → t.fault = some c →
    t = { s with fault := some c } ∧ ∀ n, core.run n t = .next t

/-- Spec 60 R177: every fault a step records is one of the five, with its code, its information, its raiser and its
condition. -/
def Obligations.FaultCausesAreAsListed : Prop :=
  ∀ (s t : State) (c : FaultCause), s.Inv → s.fault = none → step s = .next t → t.fault = some c →
    match c with
    | .memOutOfRange a => c.code = 1 ∧ 0xFFF < a ∧ s.cfg.oob = .fault ∧
        (s.fetch = .error c ∨ ∃ w, s.fetch = .ok w ∧
          ((∃ x y n, decode w = .drw x y n) ∨ ∃ x, decode w = .ldB x ∨ decode w = .ldMemVx x ∨ decode w = .ldVxMem x))
    | .frameOutOfRange p => c.code = 2 ∧ 2048 ≤ p ∧ p ≤ 2950 ∧ s.cfg.drawEdge = .linear ∧ s.cfg.oob = .fault ∧
        ∃ w x y n, s.fetch = .ok w ∧ decode w = .drw x y n
    | .keyOutOfRange v => c.code = 3 ∧ 16 ≤ v.toNat ∧ s.cfg.oob = .fault ∧
        ∃ w x n, s.fetch = .ok w ∧ (decode w = .skp x n ∨ decode w = .sknp x n) ∧ v = s.getReg x
    | .stackOverflow k => c.code = 4 ∧ k = 16 ∧ k = s.sp ∧ s.cfg.stackPolicy = .fault ∧
        ∃ w nnn, s.fetch = .ok w ∧ decode w = .call nnn
    | .stackUnderflow k => c.code = 5 ∧ k = 0 ∧ k = s.sp ∧ s.cfg.stackPolicy = .fault ∧
        ∃ w b, s.fetch = .ok w ∧ decode w = .ret b

/-- Spec 60 R175, its last sentence: under Wrap or Clamp for both policies no step ever faults. -/
def Obligations.NoStepFaultsUnderWrapOrClamp : Prop :=
  ∀ s t : State, s.cfg.oob ≠ .fault → s.cfg.stackPolicy ≠ .fault → s.fault = none → step s = .next t → t.fault = none

/-- Spec 40 R90, 30 R83, 60 R175: with STRICT_DECODE = false a step from any state that meets the invariant answers a
next state: nothing is refused and nothing stops the machine. -/
def Obligations.EveryStepAnswersNext : Prop :=
  ∀ s : State, s.Inv → s.cfg.strictDecode = false → ∃ t, step s = .next t

/-- Spec 40 R95 and 45 R168: a completed step takes each timer down by 1 unless it is 0, a timer the handler has just
written too. -/
def Obligations.TimersTickOncePerCompletedStep : Prop :=
  ∀ (s t : State) (w : Word), Completes s t w →
    t.dt.toNat = (match decode w with | .ldDtVx x => (s.getReg x).toNat | _ => s.dt.toNat) - 1 ∧
    t.st.toNat = (match decode w with | .ldStVx x => (s.getReg x).toNat | _ => s.st.toNat) - 1

/-- Spec 10 R24: how each instruction leaves the pc. -/
def Obligations.PcAfterEveryInstruction : Prop :=
  ∀ (s t : State) (w : Word), Completes s t w →
    match decode w with
    | .jp nnn => t.pc = nnn.setWidth 16
    | .call nnn => t.pc = nnn.setWidth 16
    | .jpV0 nnn => t.pc.toNat = nnn.toNat + (s.getReg 0).toNat
    | .ret _ => ∃ h : t.sp.toNat < 16, t.pc = s.stack[t.sp.toNat]
    | .seImm x nn => t.pc = if s.getReg x = nn then s.pc + 4 else s.pc + 2
    | .sneImm x nn => t.pc = if s.getReg x ≠ nn then s.pc + 4 else s.pc + 2
    | .seReg x y _ => t.pc = if s.getReg x = s.getReg y then s.pc + 4 else s.pc + 2
    | .sneReg x y _ => t.pc = if s.getReg x ≠ s.getReg y then s.pc + 4 else s.pc + 2
    | .skp x _ => ∃ k, keyIndex s.cfg.oob (s.getReg x) = .ok k ∧
        t.pc = if s.keyDown k = true then s.pc + 4 else s.pc + 2
    | .sknp x _ => ∃ k, keyIndex s.cfg.oob (s.getReg x) = .ok k ∧
        t.pc = if s.keyDown k = true then s.pc + 2 else s.pc + 4
    | .ldVxK _ => ((∃ k, s.keyDown k = true) → t.pc = s.pc + 2) ∧ ((∀ k, s.keyDown k = false) → t.pc = s.pc)
    | _ => t.pc = s.pc + 2

/-- Spec 10 R21: which general registers a completed step may change; every other instruction changes none. -/
def Obligations.RegistersChangeOnlyAsListed : Prop :=
  ∀ (s t : State) (w : Word), Completes s t w → ∀ r : Nibble, t.getReg r ≠ s.getReg r →
    match decode w with
    | .ldImm x _ => r = x
    | .addImm x _ => r = x
    | .ldReg x _ => r = x
    | .orReg x _ => r = x
    | .andReg x _ => r = x
    | .xorReg x _ => r = x
    | .rnd x _ => r = x
    | .ldVxDt x => r = x
    | .addReg x _ => r = x ∨ r = 0xF
    | .sub x _ => r = x ∨ r = 0xF
    | .subn x _ => r = x ∨ r = 0xF
    | .shr x _ => r = x ∨ r = 0xF
    | .shl x _ => r = x ∨ r = 0xF
    | .drw _ _ _ => r = 0xF
    | .ldVxK x => r = x ∧ ∃ k, s.keyDown k = true
    | .ldVxMem x => r.toNat ≤ x.toNat
    | _ => False

/-- Spec 10 R27, R28: only Call changes a stack slot, and only the slot it pushes to (the one at `sp`, or, under Clamp
with a full stack, slot 15); only Call and Return change `sp`. -/
def Obligations.StackAndSpChangeOnlyByCallAndReturn : Prop :=
  ∀ (s t : State) (w : Word), Completes s t w →
    (∀ (k : Nat) (h : k < 16), t.stack[k] ≠ s.stack[k] →
      (∃ nnn, decode w = .call nnn) ∧ t.stack[k] = s.pc + 2 ∧
        k = (match s.cfg.stackPolicy with | .wrap => s.sp.toNat % 16 | _ => min s.sp.toNat 15)) ∧
    (t.sp ≠ s.sp → (∃ nnn, decode w = .call nnn) ∨ ∃ b, decode w = .ret b)

/-- Spec 20 R51, 10 R26, R32, R33, R38: which steps change memory, the frame buffer and I; no step changes the keypad or
the parameters. Spec 42 R131, 60 R188: each completed RND asks the random-byte port once and nothing else asks; the
requests are counted in `draws`, the model's own counter (DESIGN CHOICE, log entry 5). -/
def Obligations.EachStoreChangesOnlyByItsInstructions : Prop :=
  (∀ s t : State, step s = .next t → t.key = s.key ∧ t.cfg = s.cfg) ∧
  ∀ (s t : State) (w : Word), Completes s t w →
    ((∃ a, t.byteAt a ≠ s.byteAt a) → ∃ x, decode w = .ldB x ∨ decode w = .ldMemVx x) ∧
    ((∃ p, t.fb.isOn p ≠ s.fb.isOn p) → (∃ b, decode w = .cls b) ∨ ∃ x y n, decode w = .drw x y n) ∧
    (t.index ≠ s.index → (∃ nnn, decode w = .ldI nnn) ∨ ∃ x, decode w = .addI x ∨ decode w = .ldF x) ∧
    t.draws = (match decode w with | .rnd _ _ => s.draws + 1 | _ => s.draws)

/-! ### Invariant and reset (spec 10, 20, 70) -/

/-- Spec 10 R28, R31, R32: every step keeps memory and frame buffer canonical and `sp` in its range, from every state
that meets that. -/
def Obligations.StepKeepsInvariant : Prop :=
  ∀ s t : State, s.Inv → step s = .next t → t.Inv

/-- The state after construction meets the invariant, whatever the parameters (spec 70 R200). -/
def Obligations.ConstructedStateMeetsInvariant : Prop :=
  (∀ cfg : Config, (State.construct cfg).Inv) ∧ State.reset.Inv

/-- Every move of the host keeps the invariant (spec 60 R186, R187). -/
def Obligations.HostMovesKeepInvariant : Prop :=
  ∀ (s : State) (m : HostMove), s.Inv → (s.hostMove m).Inv

/-- Spec 70 R201: the state after construction. Nothing is said of `w`, which the spec leaves unspecified. -/
def Obligations.ResetValues : Prop :=
  ∀ cfg : Config,
    let s := State.construct cfg
    (∀ r, s.getReg r = 0) ∧ s.pc = 0x200 ∧ s.index = 0 ∧ (∀ (k : Nat) (h : k < 16), s.stack[k] = 0) ∧ s.sp = 0 ∧
    s.dt = 0 ∧ s.st = 0 ∧
    (∀ (a : Nat) (h : a < 80), s.byteAt a = cfg.glyphData[a]) ∧ (∀ a, 80 ≤ a → s.byteAt a = 0) ∧
    (∀ p, s.fb.isOn p = false) ∧ (∀ k, s.keyDown k = false) ∧ s.fault = none

/-- Spec 20 R57, R59: a byte that was written is read back through every address that resolves to the same location;
every other address reads as before. -/
def Obligations.MemoryReadAfterWrite : Prop :=
  ∀ (s t : State) (a : Nat) (b : Byte), s.mem.wf (resetByte s.cfg) → s.memWrite a b = .ok t →
    (∀ q, resolve s.cfg.oob q = resolve s.cfg.oob a → t.memRead q = .ok b) ∧
    (∀ q, resolve s.cfg.oob q ≠ resolve s.cfg.oob a → t.memRead q = s.memRead q) ∧
    t = { s with mem := t.mem } ∧ t.mem.wf (resetByte t.cfg)

/-! ### Ports (spec 60) -/

/-- Spec 60 R186: an image of at most 3584 bytes is copied to 0x200 and nothing else changes; a longer one is rejected
and nothing changes. -/
def Obligations.LoadPortCopiesOrRejects : Prop :=
  ∀ (s : State) (image : List Byte), s.mem.wf (resetByte s.cfg) →
    (image.length ≤ 3584 → ∃ t, s.loadImage image = some t ∧ s.hostMove (.load image) = t ∧
      t = { s with mem := t.mem } ∧
      (∀ (i : Nat) (h : i < image.length), t.byteAt (0x200 + i) = image[i]) ∧
      ∀ a, (a < 0x200 ∨ 0x200 + image.length ≤ a) → t.byteAt a = s.byteAt a) ∧
    (3584 < image.length → s.loadImage image = none ∧ s.hostMove (.load image) = s)

/-- Spec 60 R187: a key write changes only that key. -/
def Obligations.KeypadPortSetsOneKey : Prop :=
  ∀ (s : State) (k : Nibble) (pressed : Bool),
    (s.hostMove (.key k pressed)).keyDown k = pressed ∧
    (∀ j, j ≠ k → (s.hostMove (.key k pressed)).keyDown j = s.keyDown j) ∧
    s.hostMove (.key k pressed) = { s with key := (s.hostMove (.key k pressed)).key }

/-- Spec 60 R190, 10 R32: the host sees ON_PATTERN for a cell that is on and 0 for one that is off. -/
def Obligations.FrameBufferPortShowsCells : Prop :=
  ∀ (s : State) (p : Nat), (s.fb.isOn p = true → s.frameWord p = s.cfg.onPattern) ∧
    (s.fb.isOn p = false → s.frameWord p = 0)

/-! ### Control flow (spec 41) -/

/-- Spec 40 R94: NOP's handler does nothing. -/
def Obligations.NopHandlerDoesNothing : Prop :=
  ∀ (w : Word) (s : State), exec (.nop w) s = .next s

/-- Spec 41 R103: Jump. -/
def Obligations.JumpSetsPc : Prop :=
  ∀ (nnn : Addr) (s : State), decode (0x1#4 ++ nnn) = .jp nnn ∧
    ∃ t, exec (.jp nnn) s = .next t ∧ t.pc.toNat = nnn.toNat ∧ OnlyPc s t

/-- Spec 41 R105: Jump to address + V0; no wrap can occur. -/
def Obligations.JumpWithOffsetAddsV0 : Prop :=
  ∀ (nnn : Addr) (s : State), decode (0xB#4 ++ nnn) = .jpV0 nnn ∧
    ∃ t, exec (.jpV0 nnn) s = .next t ∧ t.pc.toNat = nnn.toNat + (s.getReg 0).toNat ∧ OnlyPc s t

/-- Spec 41 R104, R100: Call pushes the address after it to the slot at `sp`, moves `sp` on and jumps; a full stack
raises under Fault and keeps slot 15 the last under Clamp. -/
def Obligations.CallPushesAndJumps : Prop :=
  ∀ (nnn : Addr) (s : State), decode (0x2#4 ++ nnn) = .call nnn ∧
    (s.cfg.stackPolicy ≠ .wrap → ∀ h : s.sp.toNat < 16,
      exec (.call nnn) s = .next { s with
        stack := s.stack.set s.sp.toNat s.pc h, sp := s.sp + 1, pc := nnn.setWidth 16 }) ∧
    (s.cfg.stackPolicy = .fault → 16 ≤ s.sp.toNat →
      exec (.call nnn) s = .next { s with fault := some (.stackOverflow s.sp) }) ∧
    (s.cfg.stackPolicy = .clamp → 16 ≤ s.sp.toNat →
      exec (.call nnn) s = .next { s with stack := s.stack.set 15 s.pc, pc := nnn.setWidth 16 }) ∧
    (s.cfg.stackPolicy = .wrap → ∀ h : s.sp.toNat % 16 < 16,
      exec (.call nnn) s = .next { s with
        stack := s.stack.set (s.sp.toNat % 16) s.pc h, sp := BitVec.ofNat 8 ((s.sp.toNat + 1) % 16)
        pc := nnn.setWidth 16 })

/-- Spec 41 R102, R100: Return takes `sp` down and the pc from that slot, which keeps its value; an empty stack raises
under Fault and gives slot 0 under Clamp. -/
def Obligations.ReturnPopsPc : Prop :=
  ∀ (b : BitVec 8) (s : State), decode (0x0#4 ++ b ++ 0xE#4) = .ret b ∧
    (s.cfg.stackPolicy ≠ .wrap → 1 ≤ s.sp.toNat → ∀ h : s.sp.toNat - 1 < 16,
      exec (.ret b) s = .next { s with sp := s.sp - 1, pc := s.stack[s.sp.toNat - 1] }) ∧
    (s.cfg.stackPolicy = .fault → s.sp = 0 → exec (.ret b) s = .next { s with fault := some (.stackUnderflow 0) }) ∧
    (s.cfg.stackPolicy = .clamp → s.sp = 0 → exec (.ret b) s = .next { s with pc := s.stack[0] }) ∧
    (s.cfg.stackPolicy = .wrap → ∀ h : (s.sp.toNat + 15) % 16 < 16,
      exec (.ret b) s = .next { s with
        sp := BitVec.ofNat 8 ((s.sp.toNat + 15) % 16), pc := s.stack[(s.sp.toNat + 15) % 16] })

/-- Spec 41 R100, its last paragraph: under every policy a Call from a stack that is not full, then a Return, is back at
the address after the Call, with `sp` as before. -/
def Obligations.CallThenReturnComesBack : Prop :=
  ∀ (nnn : Addr) (b : BitVec 8) (s : State), s.sp.toNat ≤ 15 →
    ∃ t u, exec (.call nnn) s = .next t ∧ exec (.ret b) t = .next u ∧
      u.pc = s.pc ∧ u.sp = s.sp ∧ u = { s with stack := t.stack }

/-- The model's choice for a state no run reaches (log entry 6; spec 91, 10_state.md, gives `sp` above 16 no
behaviour): with `sp` above 16 Return stops by name under Fault and Clamp. -/
def Obligations.ReturnStopsOnIllegalStackPointer : Prop :=
  ∀ (b : BitVec 8) (s : State), s.cfg.stackPolicy ≠ .wrap → 16 < s.sp.toNat →
    exec (.ret b) s = .fault (.stackPointerIllegal s.sp)

/-- Spec 41 R106 to R109: the compare skips. -/
def Obligations.CompareSkips : Prop :=
  ∀ (x y n : Nibble) (nn : Byte) (s : State),
    (decode (0x3#4 ++ x ++ nn) = .seImm x nn ∧ ∃ t, exec (.seImm x nn) s = .next t ∧ OnlyPc s t ∧
      t.pc = if s.getReg x = nn then s.pc + 2 else s.pc) ∧
    (decode (0x4#4 ++ x ++ nn) = .sneImm x nn ∧ ∃ t, exec (.sneImm x nn) s = .next t ∧ OnlyPc s t ∧
      t.pc = if s.getReg x = nn then s.pc else s.pc + 2) ∧
    (decode (0x5#4 ++ x ++ y ++ n) = .seReg x y n ∧ ∃ t, exec (.seReg x y n) s = .next t ∧ OnlyPc s t ∧
      t.pc = if s.getReg x = s.getReg y then s.pc + 2 else s.pc) ∧
    (decode (0x9#4 ++ x ++ y ++ n) = .sneReg x y n ∧ ∃ t, exec (.sneReg x y n) s = .next t ∧ OnlyPc s t ∧
      t.pc = if s.getReg x = s.getReg y then s.pc else s.pc + 2)

/-- Spec 41 R110, R111 with R101: the key skips. A value above 15 names no key: it raises under Fault, is taken modulo
16 under Wrap and is key 15 under Clamp. -/
def Obligations.KeySkips : Prop :=
  ∀ (x n : Nibble) (s : State),
    decode (0xE#4 ++ x ++ n ++ 0xE#4) = .skp x n ∧ decode (0xE#4 ++ x ++ n ++ 0x1#4) = .sknp x n ∧
    (∀ k : Nibble,
      (k.toNat = (s.getReg x).toNat ∨
        (15 < (s.getReg x).toNat ∧ s.cfg.oob = .wrap ∧ k.toNat = (s.getReg x).toNat % 16) ∨
        (15 < (s.getReg x).toNat ∧ s.cfg.oob = .clamp ∧ k = 15)) →
      (∃ t, exec (.skp x n) s = .next t ∧ OnlyPc s t ∧ t.pc = if s.keyDown k = true then s.pc + 2 else s.pc) ∧
      (∃ t, exec (.sknp x n) s = .next t ∧ OnlyPc s t ∧ t.pc = if s.keyDown k = true then s.pc else s.pc + 2)) ∧
    (15 < (s.getReg x).toNat → s.cfg.oob = .fault →
      exec (.skp x n) s = .next { s with fault := some (.keyOutOfRange (s.getReg x)) } ∧
      exec (.sknp x n) s = .next { s with fault := some (.keyOutOfRange (s.getReg x)) })

/-! ### Register loads and the ALU (spec 42) -/

/-- Spec 42 R120: Load immediate. -/
def Obligations.LoadImmediateSetsRegister : Prop :=
  ∀ (x : Nibble) (nn : Byte) (s : State), decode (0x6#4 ++ x ++ nn) = .ldImm x nn ∧
    ∃ t, exec (.ldImm x nn) s = .next t ∧ SetsReg s t x nn

/-- Spec 42 R121: Add immediate wraps modulo 256 and sets no flag. -/
def Obligations.AddImmediateWrapsWithoutFlag : Prop :=
  ∀ (x : Nibble) (nn : Byte) (s : State), decode (0x7#4 ++ x ++ nn) = .addImm x nn ∧
    ∃ t, exec (.addImm x nn) s = .next t ∧
      SetsReg s t x (BitVec.ofNat 8 (((s.getReg x).toNat + nn.toNat) % 256))

/-- Spec 42 R122: Move. -/
def Obligations.MoveCopiesRegister : Prop :=
  ∀ (x y : Nibble) (s : State), decode (0x8#4 ++ x ++ y ++ 0x0#4) = .ldReg x y ∧
    ∃ t, exec (.ldReg x y) s = .next t ∧ SetsReg s t x (s.getReg y)

/-- Spec 42 R123, R124, R125: OR, AND and XOR, bit by bit, without a flag. -/
def Obligations.BitwiseOperations : Prop :=
  ∀ (x y : Nibble) (s : State),
    (decode (0x8#4 ++ x ++ y ++ 0x1#4) = .orReg x y ∧ ∃ t b, exec (.orReg x y) s = .next t ∧ SetsReg s t x b ∧
      ∀ i, b.getLsbD i = ((s.getReg x).getLsbD i || (s.getReg y).getLsbD i)) ∧
    (decode (0x8#4 ++ x ++ y ++ 0x2#4) = .andReg x y ∧ ∃ t b, exec (.andReg x y) s = .next t ∧ SetsReg s t x b ∧
      ∀ i, b.getLsbD i = ((s.getReg x).getLsbD i && (s.getReg y).getLsbD i)) ∧
    (decode (0x8#4 ++ x ++ y ++ 0x3#4) = .xorReg x y ∧ ∃ t b, exec (.xorReg x y) s = .next t ∧ SetsReg s t x b ∧
      ∀ i, b.getLsbD i = ((s.getReg x).getLsbD i ^^ (s.getReg y).getLsbD i))

/-- Spec 42 R126: Add registers, VF the carry, written last. -/
def Obligations.AddRegistersSetsCarry : Prop :=
  ∀ (x y : Nibble) (s : State), decode (0x8#4 ++ x ++ y ++ 0x4#4) = .addReg x y ∧
    ∃ t, exec (.addReg x y) s = .next t ∧
      SetsRegAndFlag s t x (BitVec.ofNat 8 (((s.getReg x).toNat + (s.getReg y).toNat) % 256))
        (if 255 < (s.getReg x).toNat + (s.getReg y).toNat then 1 else 0)

/-- Spec 42 R127, R129: Subtract and Subtract reversed, VF the strict comparison, written last. -/
def Obligations.SubtractionsSetStrictFlag : Prop :=
  ∀ (x y : Nibble) (s : State),
    (decode (0x8#4 ++ x ++ y ++ 0x5#4) = .sub x y ∧ ∃ t, exec (.sub x y) s = .next t ∧
      SetsRegAndFlag s t x (BitVec.ofNat 8 ((256 + (s.getReg x).toNat - (s.getReg y).toNat) % 256))
        (if (s.getReg y).toNat < (s.getReg x).toNat then 1 else 0)) ∧
    (decode (0x8#4 ++ x ++ y ++ 0x7#4) = .subn x y ∧ ∃ t, exec (.subn x y) s = .next t ∧
      SetsRegAndFlag s t x (BitVec.ofNat 8 ((256 + (s.getReg y).toNat - (s.getReg x).toNat) % 256))
        (if (s.getReg x).toNat < (s.getReg y).toNat then 1 else 0))

/-- Spec 42 R128, R130: the shifts of the source SHIFT_SOURCE names, VF the bit shifted out, written last. -/
def Obligations.ShiftsSetShiftedOutBit : Prop :=
  ∀ (x y : Nibble) (s : State) (b : Byte),
    (s.cfg.shiftSource = .vx ∧ b = s.getReg x) ∨ (s.cfg.shiftSource = .vy ∧ b = s.getReg y) →
    (decode (0x8#4 ++ x ++ y ++ 0x6#4) = .shr x y ∧ ∃ t, exec (.shr x y) s = .next t ∧
      SetsRegAndFlag s t x (BitVec.ofNat 8 (b.toNat / 2)) (BitVec.ofNat 8 (b.toNat % 2))) ∧
    (decode (0x8#4 ++ x ++ y ++ 0xE#4) = .shl x y ∧ ∃ t, exec (.shl x y) s = .next t ∧
      SetsRegAndFlag s t x (BitVec.ofNat 8 (b.toNat * 2 % 256)) (BitVec.ofNat 8 (b.toNat / 128)))

/-- Spec 42 R131, 60 R188: Random AND asks once and masks whatever byte the host answers, the free value
`Config.randomByte` of log entry 5; the bits where NN is 0 are 0. -/
def Obligations.RandomAndMasksOneDraw : Prop :=
  ∀ (x : Nibble) (nn : Byte) (s : State), decode (0xC#4 ++ x ++ nn) = .rnd x nn ∧
    ∃ t, exec (.rnd x nn) s = .next t ∧ t.getReg x = Config.randomByte s.draws &&& nn ∧
      (∀ i, nn.getLsbD i = false → (t.getReg x).getLsbD i = false) ∧ (∀ r, r ≠ x → t.getReg r = s.getReg r) ∧
      t = { s with v := t.v, draws := s.draws + 1 } ∧ ∀ a, t.byteAt a = s.byteAt a

/-! ### Index register and memory (spec 43) -/

/-- Spec 43 R140, R141, R142: the instructions that write I; no flag, no masking of a digit above 15. -/
def Obligations.IndexInstructionsSetI : Prop :=
  (∀ (nnn : Addr) (s : State), decode (0xA#4 ++ nnn) = .ldI nnn ∧
    ∃ t, exec (.ldI nnn) s = .next t ∧ t.index.toNat = nnn.toNat ∧ OnlyIndex s t) ∧
  ∀ (x : Nibble) (s : State),
    (decode (0xF#4 ++ x ++ 0x1E#8) = .addI x ∧ ∃ t, exec (.addI x) s = .next t ∧
      t.index.toNat = (s.index.toNat + (s.getReg x).toNat) % 65536 ∧ OnlyIndex s t) ∧
    (decode (0xF#4 ++ x ++ 0x29#8) = .ldF x ∧ ∃ t, exec (.ldF x) s = .next t ∧
      t.index.toNat = 0x000 + 5 * (s.getReg x).toNat ∧ OnlyIndex s t)

/-- Spec 43 R143: the BCD store writes hundreds, tens and ones where I, I + 1 and I + 2 resolve, in that order, and
nothing else; under Fault the first address above 0xFFF is raised instead and nothing is written. -/
def Obligations.BcdStoreWritesThreeDigits : Prop :=
  ∀ (x : Nibble) (s : State), decode (0xF#4 ++ x ++ 0x33#8) = .ldB x ∧
    (s.mem.wf (resetByte s.cfg) → ∀ k0 k1 k2, resolve s.cfg.oob (s.indexed 0) = .ok k0 →
      resolve s.cfg.oob (s.indexed 1) = .ok k1 → resolve s.cfg.oob (s.indexed 2) = .ok k2 →
      ∃ t, exec (.ldB x) s = .next t ∧ t = { s with mem := t.mem } ∧
        ∀ a, t.byteAt a =
          if a = k2 then BitVec.ofNat 8 ((s.getReg x).toNat % 10)
          else if a = k1 then BitVec.ofNat 8 ((s.getReg x).toNat / 10 % 10)
          else if a = k0 then BitVec.ofNat 8 ((s.getReg x).toNat / 100)
          else s.byteAt a) ∧
    (s.cfg.oob = .fault → 0xFFF < s.index.toNat + 2 →
      exec (.ldB x) s = .next { s with fault := some (.memOutOfRange (max s.index.toNat 0x1000)) })

/-- Spec 43 R144: the block store writes V0 to VX where I to I + X resolve, in ascending order, and nothing else; under
Fault the first address above 0xFFF is raised instead and nothing is written. -/
def Obligations.BlockStoreWritesRegisters : Prop :=
  ∀ (x : Nibble) (s : State), decode (0xF#4 ++ x ++ 0x55#8) = .ldMemVx x ∧
    (s.mem.wf (resetByte s.cfg) → (s.cfg.oob ≠ .fault ∨ s.index.toNat + x.toNat ≤ 0xFFF) →
      ∃ t, exec (.ldMemVx x) s = .next t ∧ t = { s with mem := t.mem } ∧
        (∀ a i : Nat, i ≤ x.toNat → resolve s.cfg.oob (s.indexed i) = .ok a →
          (∀ j, i < j → j ≤ x.toNat → resolve s.cfg.oob (s.indexed j) ≠ .ok a) →
          t.byteAt a = s.getReg (BitVec.ofNat 4 i)) ∧
        ∀ a, (∀ i, i ≤ x.toNat → resolve s.cfg.oob (s.indexed i) ≠ .ok a) → t.byteAt a = s.byteAt a) ∧
    (s.cfg.oob = .fault → 0xFFF < s.index.toNat + x.toNat →
      exec (.ldMemVx x) s = .next { s with fault := some (.memOutOfRange (max s.index.toNat 0x1000)) })

/-- Spec 43 R145: the block load reads V0 to VX from where I to I + X resolve, and no other register changes; under
Fault the first address above 0xFFF is raised instead and no register is written. -/
def Obligations.BlockLoadReadsRegisters : Prop :=
  ∀ (x : Nibble) (s : State), decode (0xF#4 ++ x ++ 0x65#8) = .ldVxMem x ∧
    ((s.cfg.oob ≠ .fault ∨ s.index.toNat + x.toNat ≤ 0xFFF) →
      ∃ t, exec (.ldVxMem x) s = .next t ∧ OnlyRegs s t ∧
        (∀ r : Nibble, r.toNat ≤ x.toNat → s.memRead (s.indexed r.toNat) = .ok (t.getReg r)) ∧
        ∀ r : Nibble, x.toNat < r.toNat → t.getReg r = s.getReg r) ∧
    (s.cfg.oob = .fault → 0xFFF < s.index.toNat + x.toNat →
      exec (.ldVxMem x) s = .next { s with fault := some (.memOutOfRange (max s.index.toNat 0x1000)) })

/-! ### Display (spec 44) -/

/-- Spec 44 R155: Clear screen. -/
def Obligations.ClearScreenTurnsEveryCellOff : Prop :=
  ∀ (b : BitVec 8) (s : State), decode (0x0#4 ++ b ++ 0x0#4) = .cls b ∧
    ∃ t, exec (.cls b) s = .next t ∧ (∀ p, t.fb.isOn p = false) ∧ t = { s with fb := t.fb } ∧
      (∀ r, t.getReg r = s.getReg r) ∧ ∀ a, t.byteAt a = s.byteAt a

/-- Spec 44 R156, R157: a sprite that fits flips each cell once for every set pixel that lands on it, and VF is 1 exactly
when some flip turned a cell off; nothing else changes. -/
def Obligations.DrawXorsSprite : Prop :=
  ∀ (x y n : Nibble) (s : State), decode (0xD#4 ++ x ++ y ++ n) = .drw x y n ∧
    (s.fb.wf → s.SpriteFits x y n.toNat →
      ∃ t, exec (.drw x y n) s = .next t ∧
        (∀ p, t.fb.isOn p = (s.fb.isOn p ^^ decide (s.spriteHits x y n.toNat p % 2 = 1))) ∧
        ((∃ p, (s.fb.isOn p = true ∧ 1 ≤ s.spriteHits x y n.toNat p) ∨ 2 ≤ s.spriteHits x y n.toNat p) →
          t.getReg 0xF = 1) ∧
        ((∀ p, (s.fb.isOn p = true → s.spriteHits x y n.toNat p = 0) ∧ s.spriteHits x y n.toNat p ≤ 1) →
          t.getReg 0xF = 0) ∧
        (∀ r, r ≠ 0xF → t.getReg r = s.getReg r) ∧ t = { s with fb := t.fb, v := t.v } ∧
        ∀ a, t.byteAt a = s.byteAt a)

/-- Spec 44 R156, its corner cases: but for Linear with Clamp no cell is addressed twice by one draw. -/
def Obligations.DrawAddressesNoCellTwice : Prop :=
  ∀ (x y n : Nibble) (s : State) (p : Nat), (s.cfg.drawEdge ≠ .linear ∨ s.cfg.oob ≠ .clamp) →
    s.spriteHits x y n.toNat p ≤ 1

/-- Spec 60 R178, 44 R156: the first raise in the draw's loop order is the one taken, and the draw then does nothing
else: a row's byte before its pixels, pixels from bit 7. -/
def Obligations.DrawRaisesFirstFault : Prop :=
  ∀ (x y n : Nibble) (s : State) (r : Nat) (e : FaultCause), r < n.toNat → s.SpriteFits x y r →
    (s.memRead (s.indexed r) = .error e → exec (.drw x y n) s = .next { s with fault := some e }) ∧
    ∀ b c, s.memRead (s.indexed r) = .ok b → c < 8 → b.getLsbD (7 - c) = true →
      (∀ d, d < c → b.getLsbD (7 - d) = true → ∃ o, pixelIndex s.cfg (s.spriteX x + d) (s.spriteY y + r) = .ok o) →
      pixelIndex s.cfg (s.spriteX x + c) (s.spriteY y + r) = .error e →
      exec (.drw x y n) s = .next { s with fault := some e }

/-- Spec 44 R156, its example: drawing a sprite that fits a second time at the same place restores every cell, and sets
VF where the first draw turned on a cell without a collision. -/
def Obligations.DrawingTwiceRestoresTheScreen : Prop :=
  ∀ (x y n : Nibble) (s : State), s.fb.wf → s.SpriteFits x y n.toNat → x ≠ 0xF → y ≠ 0xF →
    ∃ t u, exec (.drw x y n) s = .next t ∧ exec (.drw x y n) t = .next u ∧ (∀ p, u.fb.isOn p = s.fb.isOn p) ∧
      (t.getReg 0xF = 0 → (∃ p, t.fb.isOn p ≠ s.fb.isOn p) → u.getReg 0xF = 1)

/-! ### Timers and keypad (spec 45) -/

/-- Spec 45 R165, R166, R167: the timer instructions; the tick that follows is the step's. -/
def Obligations.TimerInstructionsCopy : Prop :=
  ∀ (x : Nibble) (s : State),
    (decode (0xF#4 ++ x ++ 0x07#8) = .ldVxDt x ∧ ∃ t, exec (.ldVxDt x) s = .next t ∧ SetsReg s t x s.dt) ∧
    (decode (0xF#4 ++ x ++ 0x15#8) = .ldDtVx x ∧ exec (.ldDtVx x) s = .next { s with dt := s.getReg x }) ∧
    (decode (0xF#4 ++ x ++ 0x18#8) = .ldStVx x ∧ exec (.ldStVx x) s = .next { s with st := s.getReg x })

/-- Spec 45 R169: Wait-for-key takes the lowest pressed key, and with no key pressed only takes the pc back by 2. -/
def Obligations.WaitForKeyTakesLowestOrWaits : Prop :=
  ∀ (x : Nibble) (s : State), decode (0xF#4 ++ x ++ 0x0A#8) = .ldVxK x ∧
    (∀ k : Nibble, s.keyDown k = true → (∀ j : Nibble, j.toNat < k.toNat → s.keyDown j = false) →
      ∃ t, exec (.ldVxK x) s = .next t ∧ SetsReg s t x (k.setWidth 8)) ∧
    ((∀ k, s.keyDown k = false) → exec (.ldVxK x) s = .next { s with pc := s.pc - 2 })
end

