-- ==== Sys2Proof/Laws/State.lean ====
section
/-! SUPPORT. One lemma per field per named update of the state, each true by rfl, and what the readers of the state see
after an update. -/

namespace Sys2Proof.Machine

/-! ### setReg -/

@[simp] theorem State.setReg_cfg (s : State) (r : Nibble) (b : Byte) : (s.setReg r b).cfg = s.cfg := rfl
@[simp] theorem State.setReg_v (s : State) (r : Nibble) (b : Byte) : (s.setReg r b).v = s.v.set r.toNat b r.isLt := rfl
@[simp] theorem State.setReg_pc (s : State) (r : Nibble) (b : Byte) : (s.setReg r b).pc = s.pc := rfl
@[simp] theorem State.setReg_index (s : State) (r : Nibble) (b : Byte) : (s.setReg r b).index = s.index := rfl
@[simp] theorem State.setReg_stack (s : State) (r : Nibble) (b : Byte) : (s.setReg r b).stack = s.stack := rfl
@[simp] theorem State.setReg_sp (s : State) (r : Nibble) (b : Byte) : (s.setReg r b).sp = s.sp := rfl
@[simp] theorem State.setReg_dt (s : State) (r : Nibble) (b : Byte) : (s.setReg r b).dt = s.dt := rfl
@[simp] theorem State.setReg_st (s : State) (r : Nibble) (b : Byte) : (s.setReg r b).st = s.st := rfl
@[simp] theorem State.setReg_mem (s : State) (r : Nibble) (b : Byte) : (s.setReg r b).mem = s.mem := rfl
@[simp] theorem State.setReg_fb (s : State) (r : Nibble) (b : Byte) : (s.setReg r b).fb = s.fb := rfl
@[simp] theorem State.setReg_key (s : State) (r : Nibble) (b : Byte) : (s.setReg r b).key = s.key := rfl
@[simp] theorem State.setReg_w (s : State) (r : Nibble) (b : Byte) : (s.setReg r b).w = s.w := rfl
@[simp] theorem State.setReg_fault (s : State) (r : Nibble) (b : Byte) : (s.setReg r b).fault = s.fault := rfl
@[simp] theorem State.setReg_draws (s : State) (r : Nibble) (b : Byte) : (s.setReg r b).draws = s.draws := rfl
@[simp] theorem State.setReg_lapses (s : State) (r : Nibble) (b : Byte) : (s.setReg r b).lapses = s.lapses := rfl
@[simp] theorem State.byteAt_setReg (s : State) (r : Nibble) (b : Byte) (a0 : Nat) : (s.setReg r b).byteAt a0 = s.byteAt a0 := rfl
@[simp] theorem State.memRead_setReg (s : State) (r : Nibble) (b : Byte) (a0 : Nat) : (s.setReg r b).memRead a0 = s.memRead a0 := rfl
@[simp] theorem State.keyDown_setReg (s : State) (r : Nibble) (b : Byte) (k0 : Nibble) : (s.setReg r b).keyDown k0 = s.keyDown k0 := rfl
@[simp] theorem State.indexed_setReg (s : State) (r : Nibble) (b : Byte) (k0 : Nat) : (s.setReg r b).indexed k0 = s.indexed k0 := rfl

/-! ### setPc -/

@[simp] theorem State.setPc_cfg (s : State) (a : Word) : (s.setPc a).cfg = s.cfg := rfl
@[simp] theorem State.setPc_v (s : State) (a : Word) : (s.setPc a).v = s.v := rfl
@[simp] theorem State.setPc_pc (s : State) (a : Word) : (s.setPc a).pc = a := rfl
@[simp] theorem State.setPc_index (s : State) (a : Word) : (s.setPc a).index = s.index := rfl
@[simp] theorem State.setPc_stack (s : State) (a : Word) : (s.setPc a).stack = s.stack := rfl
@[simp] theorem State.setPc_sp (s : State) (a : Word) : (s.setPc a).sp = s.sp := rfl
@[simp] theorem State.setPc_dt (s : State) (a : Word) : (s.setPc a).dt = s.dt := rfl
@[simp] theorem State.setPc_st (s : State) (a : Word) : (s.setPc a).st = s.st := rfl
@[simp] theorem State.setPc_mem (s : State) (a : Word) : (s.setPc a).mem = s.mem := rfl
@[simp] theorem State.setPc_fb (s : State) (a : Word) : (s.setPc a).fb = s.fb := rfl
@[simp] theorem State.setPc_key (s : State) (a : Word) : (s.setPc a).key = s.key := rfl
@[simp] theorem State.setPc_w (s : State) (a : Word) : (s.setPc a).w = s.w := rfl
@[simp] theorem State.setPc_fault (s : State) (a : Word) : (s.setPc a).fault = s.fault := rfl
@[simp] theorem State.setPc_draws (s : State) (a : Word) : (s.setPc a).draws = s.draws := rfl
@[simp] theorem State.setPc_lapses (s : State) (a : Word) : (s.setPc a).lapses = s.lapses := rfl
@[simp] theorem State.getReg_setPc (s : State) (a : Word) (r0 : Nibble) : (s.setPc a).getReg r0 = s.getReg r0 := rfl
@[simp] theorem State.byteAt_setPc (s : State) (a : Word) (a0 : Nat) : (s.setPc a).byteAt a0 = s.byteAt a0 := rfl
@[simp] theorem State.memRead_setPc (s : State) (a : Word) (a0 : Nat) : (s.setPc a).memRead a0 = s.memRead a0 := rfl
@[simp] theorem State.keyDown_setPc (s : State) (a : Word) (k0 : Nibble) : (s.setPc a).keyDown k0 = s.keyDown k0 := rfl
@[simp] theorem State.indexed_setPc (s : State) (a : Word) (k0 : Nat) : (s.setPc a).indexed k0 = s.indexed k0 := rfl

/-! ### setIndex -/

@[simp] theorem State.setIndex_cfg (s : State) (a : Word) : (s.setIndex a).cfg = s.cfg := rfl
@[simp] theorem State.setIndex_v (s : State) (a : Word) : (s.setIndex a).v = s.v := rfl
@[simp] theorem State.setIndex_pc (s : State) (a : Word) : (s.setIndex a).pc = s.pc := rfl
@[simp] theorem State.setIndex_index (s : State) (a : Word) : (s.setIndex a).index = a := rfl
@[simp] theorem State.setIndex_stack (s : State) (a : Word) : (s.setIndex a).stack = s.stack := rfl
@[simp] theorem State.setIndex_sp (s : State) (a : Word) : (s.setIndex a).sp = s.sp := rfl
@[simp] theorem State.setIndex_dt (s : State) (a : Word) : (s.setIndex a).dt = s.dt := rfl
@[simp] theorem State.setIndex_st (s : State) (a : Word) : (s.setIndex a).st = s.st := rfl
@[simp] theorem State.setIndex_mem (s : State) (a : Word) : (s.setIndex a).mem = s.mem := rfl
@[simp] theorem State.setIndex_fb (s : State) (a : Word) : (s.setIndex a).fb = s.fb := rfl
@[simp] theorem State.setIndex_key (s : State) (a : Word) : (s.setIndex a).key = s.key := rfl
@[simp] theorem State.setIndex_w (s : State) (a : Word) : (s.setIndex a).w = s.w := rfl
@[simp] theorem State.setIndex_fault (s : State) (a : Word) : (s.setIndex a).fault = s.fault := rfl
@[simp] theorem State.setIndex_draws (s : State) (a : Word) : (s.setIndex a).draws = s.draws := rfl
@[simp] theorem State.setIndex_lapses (s : State) (a : Word) : (s.setIndex a).lapses = s.lapses := rfl
@[simp] theorem State.getReg_setIndex (s : State) (a : Word) (r0 : Nibble) : (s.setIndex a).getReg r0 = s.getReg r0 := rfl
@[simp] theorem State.byteAt_setIndex (s : State) (a : Word) (a0 : Nat) : (s.setIndex a).byteAt a0 = s.byteAt a0 := rfl
@[simp] theorem State.memRead_setIndex (s : State) (a : Word) (a0 : Nat) : (s.setIndex a).memRead a0 = s.memRead a0 := rfl
@[simp] theorem State.keyDown_setIndex (s : State) (a : Word) (k0 : Nibble) : (s.setIndex a).keyDown k0 = s.keyDown k0 := rfl

/-! ### setDt -/

@[simp] theorem State.setDt_cfg (s : State) (b : Byte) : (s.setDt b).cfg = s.cfg := rfl
@[simp] theorem State.setDt_v (s : State) (b : Byte) : (s.setDt b).v = s.v := rfl
@[simp] theorem State.setDt_pc (s : State) (b : Byte) : (s.setDt b).pc = s.pc := rfl
@[simp] theorem State.setDt_index (s : State) (b : Byte) : (s.setDt b).index = s.index := rfl
@[simp] theorem State.setDt_stack (s : State) (b : Byte) : (s.setDt b).stack = s.stack := rfl
@[simp] theorem State.setDt_sp (s : State) (b : Byte) : (s.setDt b).sp = s.sp := rfl
@[simp] theorem State.setDt_dt (s : State) (b : Byte) : (s.setDt b).dt = b := rfl
@[simp] theorem State.setDt_st (s : State) (b : Byte) : (s.setDt b).st = s.st := rfl
@[simp] theorem State.setDt_mem (s : State) (b : Byte) : (s.setDt b).mem = s.mem := rfl
@[simp] theorem State.setDt_fb (s : State) (b : Byte) : (s.setDt b).fb = s.fb := rfl
@[simp] theorem State.setDt_key (s : State) (b : Byte) : (s.setDt b).key = s.key := rfl
@[simp] theorem State.setDt_w (s : State) (b : Byte) : (s.setDt b).w = s.w := rfl
@[simp] theorem State.setDt_fault (s : State) (b : Byte) : (s.setDt b).fault = s.fault := rfl
@[simp] theorem State.setDt_draws (s : State) (b : Byte) : (s.setDt b).draws = s.draws := rfl
@[simp] theorem State.setDt_lapses (s : State) (b : Byte) : (s.setDt b).lapses = s.lapses := rfl
@[simp] theorem State.getReg_setDt (s : State) (b : Byte) (r0 : Nibble) : (s.setDt b).getReg r0 = s.getReg r0 := rfl
@[simp] theorem State.byteAt_setDt (s : State) (b : Byte) (a0 : Nat) : (s.setDt b).byteAt a0 = s.byteAt a0 := rfl
@[simp] theorem State.memRead_setDt (s : State) (b : Byte) (a0 : Nat) : (s.setDt b).memRead a0 = s.memRead a0 := rfl
@[simp] theorem State.keyDown_setDt (s : State) (b : Byte) (k0 : Nibble) : (s.setDt b).keyDown k0 = s.keyDown k0 := rfl
@[simp] theorem State.indexed_setDt (s : State) (b : Byte) (k0 : Nat) : (s.setDt b).indexed k0 = s.indexed k0 := rfl

/-! ### setSt -/

@[simp] theorem State.setSt_cfg (s : State) (b : Byte) : (s.setSt b).cfg = s.cfg := rfl
@[simp] theorem State.setSt_v (s : State) (b : Byte) : (s.setSt b).v = s.v := rfl
@[simp] theorem State.setSt_pc (s : State) (b : Byte) : (s.setSt b).pc = s.pc := rfl
@[simp] theorem State.setSt_index (s : State) (b : Byte) : (s.setSt b).index = s.index := rfl
@[simp] theorem State.setSt_stack (s : State) (b : Byte) : (s.setSt b).stack = s.stack := rfl
@[simp] theorem State.setSt_sp (s : State) (b : Byte) : (s.setSt b).sp = s.sp := rfl
@[simp] theorem State.setSt_dt (s : State) (b : Byte) : (s.setSt b).dt = s.dt := rfl
@[simp] theorem State.setSt_st (s : State) (b : Byte) : (s.setSt b).st = b := rfl
@[simp] theorem State.setSt_mem (s : State) (b : Byte) : (s.setSt b).mem = s.mem := rfl
@[simp] theorem State.setSt_fb (s : State) (b : Byte) : (s.setSt b).fb = s.fb := rfl
@[simp] theorem State.setSt_key (s : State) (b : Byte) : (s.setSt b).key = s.key := rfl
@[simp] theorem State.setSt_w (s : State) (b : Byte) : (s.setSt b).w = s.w := rfl
@[simp] theorem State.setSt_fault (s : State) (b : Byte) : (s.setSt b).fault = s.fault := rfl
@[simp] theorem State.setSt_draws (s : State) (b : Byte) : (s.setSt b).draws = s.draws := rfl
@[simp] theorem State.setSt_lapses (s : State) (b : Byte) : (s.setSt b).lapses = s.lapses := rfl
@[simp] theorem State.getReg_setSt (s : State) (b : Byte) (r0 : Nibble) : (s.setSt b).getReg r0 = s.getReg r0 := rfl
@[simp] theorem State.byteAt_setSt (s : State) (b : Byte) (a0 : Nat) : (s.setSt b).byteAt a0 = s.byteAt a0 := rfl
@[simp] theorem State.memRead_setSt (s : State) (b : Byte) (a0 : Nat) : (s.setSt b).memRead a0 = s.memRead a0 := rfl
@[simp] theorem State.keyDown_setSt (s : State) (b : Byte) (k0 : Nibble) : (s.setSt b).keyDown k0 = s.keyDown k0 := rfl
@[simp] theorem State.indexed_setSt (s : State) (b : Byte) (k0 : Nat) : (s.setSt b).indexed k0 = s.indexed k0 := rfl

/-! ### setWord -/

@[simp] theorem State.setWord_cfg (s : State) (a : Word) : (s.setWord a).cfg = s.cfg := rfl
@[simp] theorem State.setWord_v (s : State) (a : Word) : (s.setWord a).v = s.v := rfl
@[simp] theorem State.setWord_pc (s : State) (a : Word) : (s.setWord a).pc = s.pc := rfl
@[simp] theorem State.setWord_index (s : State) (a : Word) : (s.setWord a).index = s.index := rfl
@[simp] theorem State.setWord_stack (s : State) (a : Word) : (s.setWord a).stack = s.stack := rfl
@[simp] theorem State.setWord_sp (s : State) (a : Word) : (s.setWord a).sp = s.sp := rfl
@[simp] theorem State.setWord_dt (s : State) (a : Word) : (s.setWord a).dt = s.dt := rfl
@[simp] theorem State.setWord_st (s : State) (a : Word) : (s.setWord a).st = s.st := rfl
@[simp] theorem State.setWord_mem (s : State) (a : Word) : (s.setWord a).mem = s.mem := rfl
@[simp] theorem State.setWord_fb (s : State) (a : Word) : (s.setWord a).fb = s.fb := rfl
@[simp] theorem State.setWord_key (s : State) (a : Word) : (s.setWord a).key = s.key := rfl
@[simp] theorem State.setWord_w (s : State) (a : Word) : (s.setWord a).w = a := rfl
@[simp] theorem State.setWord_fault (s : State) (a : Word) : (s.setWord a).fault = s.fault := rfl
@[simp] theorem State.setWord_draws (s : State) (a : Word) : (s.setWord a).draws = s.draws := rfl
@[simp] theorem State.setWord_lapses (s : State) (a : Word) : (s.setWord a).lapses = s.lapses := rfl
@[simp] theorem State.getReg_setWord (s : State) (a : Word) (r0 : Nibble) : (s.setWord a).getReg r0 = s.getReg r0 := rfl
@[simp] theorem State.byteAt_setWord (s : State) (a : Word) (a0 : Nat) : (s.setWord a).byteAt a0 = s.byteAt a0 := rfl
@[simp] theorem State.memRead_setWord (s : State) (a : Word) (a0 : Nat) : (s.setWord a).memRead a0 = s.memRead a0 := rfl
@[simp] theorem State.keyDown_setWord (s : State) (a : Word) (k0 : Nibble) : (s.setWord a).keyDown k0 = s.keyDown k0 := rfl
@[simp] theorem State.indexed_setWord (s : State) (a : Word) (k0 : Nat) : (s.setWord a).indexed k0 = s.indexed k0 := rfl

/-! ### setFb -/

@[simp] theorem State.setFb_cfg (s : State) (f : Frame) : (s.setFb f).cfg = s.cfg := rfl
@[simp] theorem State.setFb_v (s : State) (f : Frame) : (s.setFb f).v = s.v := rfl
@[simp] theorem State.setFb_pc (s : State) (f : Frame) : (s.setFb f).pc = s.pc := rfl
@[simp] theorem State.setFb_index (s : State) (f : Frame) : (s.setFb f).index = s.index := rfl
@[simp] theorem State.setFb_stack (s : State) (f : Frame) : (s.setFb f).stack = s.stack := rfl
@[simp] theorem State.setFb_sp (s : State) (f : Frame) : (s.setFb f).sp = s.sp := rfl
@[simp] theorem State.setFb_dt (s : State) (f : Frame) : (s.setFb f).dt = s.dt := rfl
@[simp] theorem State.setFb_st (s : State) (f : Frame) : (s.setFb f).st = s.st := rfl
@[simp] theorem State.setFb_mem (s : State) (f : Frame) : (s.setFb f).mem = s.mem := rfl
@[simp] theorem State.setFb_fb (s : State) (f : Frame) : (s.setFb f).fb = f := rfl
@[simp] theorem State.setFb_key (s : State) (f : Frame) : (s.setFb f).key = s.key := rfl
@[simp] theorem State.setFb_w (s : State) (f : Frame) : (s.setFb f).w = s.w := rfl
@[simp] theorem State.setFb_fault (s : State) (f : Frame) : (s.setFb f).fault = s.fault := rfl
@[simp] theorem State.setFb_draws (s : State) (f : Frame) : (s.setFb f).draws = s.draws := rfl
@[simp] theorem State.setFb_lapses (s : State) (f : Frame) : (s.setFb f).lapses = s.lapses := rfl
@[simp] theorem State.getReg_setFb (s : State) (f : Frame) (r0 : Nibble) : (s.setFb f).getReg r0 = s.getReg r0 := rfl
@[simp] theorem State.byteAt_setFb (s : State) (f : Frame) (a0 : Nat) : (s.setFb f).byteAt a0 = s.byteAt a0 := rfl
@[simp] theorem State.memRead_setFb (s : State) (f : Frame) (a0 : Nat) : (s.setFb f).memRead a0 = s.memRead a0 := rfl
@[simp] theorem State.keyDown_setFb (s : State) (f : Frame) (k0 : Nibble) : (s.setFb f).keyDown k0 = s.keyDown k0 := rfl
@[simp] theorem State.indexed_setFb (s : State) (f : Frame) (k0 : Nat) : (s.setFb f).indexed k0 = s.indexed k0 := rfl

/-! ### setMem -/

@[simp] theorem State.setMem_cfg (s : State) (m : Memory) : (s.setMem m).cfg = s.cfg := rfl
@[simp] theorem State.setMem_v (s : State) (m : Memory) : (s.setMem m).v = s.v := rfl
@[simp] theorem State.setMem_pc (s : State) (m : Memory) : (s.setMem m).pc = s.pc := rfl
@[simp] theorem State.setMem_index (s : State) (m : Memory) : (s.setMem m).index = s.index := rfl
@[simp] theorem State.setMem_stack (s : State) (m : Memory) : (s.setMem m).stack = s.stack := rfl
@[simp] theorem State.setMem_sp (s : State) (m : Memory) : (s.setMem m).sp = s.sp := rfl
@[simp] theorem State.setMem_dt (s : State) (m : Memory) : (s.setMem m).dt = s.dt := rfl
@[simp] theorem State.setMem_st (s : State) (m : Memory) : (s.setMem m).st = s.st := rfl
@[simp] theorem State.setMem_mem (s : State) (m : Memory) : (s.setMem m).mem = m := rfl
@[simp] theorem State.setMem_fb (s : State) (m : Memory) : (s.setMem m).fb = s.fb := rfl
@[simp] theorem State.setMem_key (s : State) (m : Memory) : (s.setMem m).key = s.key := rfl
@[simp] theorem State.setMem_w (s : State) (m : Memory) : (s.setMem m).w = s.w := rfl
@[simp] theorem State.setMem_fault (s : State) (m : Memory) : (s.setMem m).fault = s.fault := rfl
@[simp] theorem State.setMem_draws (s : State) (m : Memory) : (s.setMem m).draws = s.draws := rfl
@[simp] theorem State.setMem_lapses (s : State) (m : Memory) : (s.setMem m).lapses = s.lapses := rfl
@[simp] theorem State.getReg_setMem (s : State) (m : Memory) (r0 : Nibble) : (s.setMem m).getReg r0 = s.getReg r0 := rfl
@[simp] theorem State.keyDown_setMem (s : State) (m : Memory) (k0 : Nibble) : (s.setMem m).keyDown k0 = s.keyDown k0 := rfl
@[simp] theorem State.indexed_setMem (s : State) (m : Memory) (k0 : Nat) : (s.setMem m).indexed k0 = s.indexed k0 := rfl

/-! ### countDraw -/

@[simp] theorem State.countDraw_cfg (s : State) : (s.countDraw).cfg = s.cfg := rfl
@[simp] theorem State.countDraw_v (s : State) : (s.countDraw).v = s.v := rfl
@[simp] theorem State.countDraw_pc (s : State) : (s.countDraw).pc = s.pc := rfl
@[simp] theorem State.countDraw_index (s : State) : (s.countDraw).index = s.index := rfl
@[simp] theorem State.countDraw_stack (s : State) : (s.countDraw).stack = s.stack := rfl
@[simp] theorem State.countDraw_sp (s : State) : (s.countDraw).sp = s.sp := rfl
@[simp] theorem State.countDraw_dt (s : State) : (s.countDraw).dt = s.dt := rfl
@[simp] theorem State.countDraw_st (s : State) : (s.countDraw).st = s.st := rfl
@[simp] theorem State.countDraw_mem (s : State) : (s.countDraw).mem = s.mem := rfl
@[simp] theorem State.countDraw_fb (s : State) : (s.countDraw).fb = s.fb := rfl
@[simp] theorem State.countDraw_key (s : State) : (s.countDraw).key = s.key := rfl
@[simp] theorem State.countDraw_w (s : State) : (s.countDraw).w = s.w := rfl
@[simp] theorem State.countDraw_fault (s : State) : (s.countDraw).fault = s.fault := rfl
@[simp] theorem State.countDraw_draws (s : State) : (s.countDraw).draws = s.draws + 1 := rfl
@[simp] theorem State.countDraw_lapses (s : State) : (s.countDraw).lapses = s.lapses := rfl
@[simp] theorem State.getReg_countDraw (s : State) (r0 : Nibble) : (s.countDraw).getReg r0 = s.getReg r0 := rfl
@[simp] theorem State.byteAt_countDraw (s : State) (a0 : Nat) : (s.countDraw).byteAt a0 = s.byteAt a0 := rfl
@[simp] theorem State.memRead_countDraw (s : State) (a0 : Nat) : (s.countDraw).memRead a0 = s.memRead a0 := rfl
@[simp] theorem State.keyDown_countDraw (s : State) (k0 : Nibble) : (s.countDraw).keyDown k0 = s.keyDown k0 := rfl
@[simp] theorem State.indexed_countDraw (s : State) (k0 : Nat) : (s.countDraw).indexed k0 = s.indexed k0 := rfl

/-! ### raise -/

@[simp] theorem State.raise_cfg (s : State) (c : FaultCause) : (s.raise c).cfg = s.cfg := rfl
@[simp] theorem State.raise_v (s : State) (c : FaultCause) : (s.raise c).v = s.v := rfl
@[simp] theorem State.raise_pc (s : State) (c : FaultCause) : (s.raise c).pc = s.pc := rfl
@[simp] theorem State.raise_index (s : State) (c : FaultCause) : (s.raise c).index = s.index := rfl
@[simp] theorem State.raise_stack (s : State) (c : FaultCause) : (s.raise c).stack = s.stack := rfl
@[simp] theorem State.raise_sp (s : State) (c : FaultCause) : (s.raise c).sp = s.sp := rfl
@[simp] theorem State.raise_dt (s : State) (c : FaultCause) : (s.raise c).dt = s.dt := rfl
@[simp] theorem State.raise_st (s : State) (c : FaultCause) : (s.raise c).st = s.st := rfl
@[simp] theorem State.raise_mem (s : State) (c : FaultCause) : (s.raise c).mem = s.mem := rfl
@[simp] theorem State.raise_fb (s : State) (c : FaultCause) : (s.raise c).fb = s.fb := rfl
@[simp] theorem State.raise_key (s : State) (c : FaultCause) : (s.raise c).key = s.key := rfl
@[simp] theorem State.raise_w (s : State) (c : FaultCause) : (s.raise c).w = s.w := rfl
@[simp] theorem State.raise_fault (s : State) (c : FaultCause) : (s.raise c).fault = some c := rfl
@[simp] theorem State.raise_draws (s : State) (c : FaultCause) : (s.raise c).draws = s.draws := rfl
@[simp] theorem State.raise_lapses (s : State) (c : FaultCause) : (s.raise c).lapses = s.lapses := rfl
@[simp] theorem State.getReg_raise (s : State) (c : FaultCause) (r0 : Nibble) : (s.raise c).getReg r0 = s.getReg r0 := rfl
@[simp] theorem State.byteAt_raise (s : State) (c : FaultCause) (a0 : Nat) : (s.raise c).byteAt a0 = s.byteAt a0 := rfl
@[simp] theorem State.memRead_raise (s : State) (c : FaultCause) (a0 : Nat) : (s.raise c).memRead a0 = s.memRead a0 := rfl
@[simp] theorem State.keyDown_raise (s : State) (c : FaultCause) (k0 : Nibble) : (s.raise c).keyDown k0 = s.keyDown k0 := rfl
@[simp] theorem State.indexed_raise (s : State) (c : FaultCause) (k0 : Nat) : (s.raise c).indexed k0 = s.indexed k0 := rfl

/-! ### setByte -/

@[simp] theorem State.setByte_cfg (s : State) (a : Nat) (b : Byte) : (s.setByte a b).cfg = s.cfg := rfl
@[simp] theorem State.setByte_v (s : State) (a : Nat) (b : Byte) : (s.setByte a b).v = s.v := rfl
@[simp] theorem State.setByte_pc (s : State) (a : Nat) (b : Byte) : (s.setByte a b).pc = s.pc := rfl
@[simp] theorem State.setByte_index (s : State) (a : Nat) (b : Byte) : (s.setByte a b).index = s.index := rfl
@[simp] theorem State.setByte_stack (s : State) (a : Nat) (b : Byte) : (s.setByte a b).stack = s.stack := rfl
@[simp] theorem State.setByte_sp (s : State) (a : Nat) (b : Byte) : (s.setByte a b).sp = s.sp := rfl
@[simp] theorem State.setByte_dt (s : State) (a : Nat) (b : Byte) : (s.setByte a b).dt = s.dt := rfl
@[simp] theorem State.setByte_st (s : State) (a : Nat) (b : Byte) : (s.setByte a b).st = s.st := rfl
@[simp] theorem State.setByte_mem (s : State) (a : Nat) (b : Byte) : (s.setByte a b).mem = s.mem.write (resetByte s.cfg) a b := rfl
@[simp] theorem State.setByte_fb (s : State) (a : Nat) (b : Byte) : (s.setByte a b).fb = s.fb := rfl
@[simp] theorem State.setByte_key (s : State) (a : Nat) (b : Byte) : (s.setByte a b).key = s.key := rfl
@[simp] theorem State.setByte_w (s : State) (a : Nat) (b : Byte) : (s.setByte a b).w = s.w := rfl
@[simp] theorem State.setByte_fault (s : State) (a : Nat) (b : Byte) : (s.setByte a b).fault = s.fault := rfl
@[simp] theorem State.setByte_draws (s : State) (a : Nat) (b : Byte) : (s.setByte a b).draws = s.draws := rfl
@[simp] theorem State.setByte_lapses (s : State) (a : Nat) (b : Byte) : (s.setByte a b).lapses = s.lapses := rfl
@[simp] theorem State.getReg_setByte (s : State) (a : Nat) (b : Byte) (r0 : Nibble) : (s.setByte a b).getReg r0 = s.getReg r0 := rfl
@[simp] theorem State.keyDown_setByte (s : State) (a : Nat) (b : Byte) (k0 : Nibble) : (s.setByte a b).keyDown k0 = s.keyDown k0 := rfl
@[simp] theorem State.indexed_setByte (s : State) (a : Nat) (b : Byte) (k0 : Nat) : (s.setByte a b).indexed k0 = s.indexed k0 := rfl

/-! ### setSlot -/

@[simp] theorem State.setSlot_cfg (s : State) (k : Fin 16) (a : Word) (n : Byte) : (s.setSlot k a n).cfg = s.cfg := rfl
@[simp] theorem State.setSlot_v (s : State) (k : Fin 16) (a : Word) (n : Byte) : (s.setSlot k a n).v = s.v := rfl
@[simp] theorem State.setSlot_pc (s : State) (k : Fin 16) (a : Word) (n : Byte) : (s.setSlot k a n).pc = s.pc := rfl
@[simp] theorem State.setSlot_index (s : State) (k : Fin 16) (a : Word) (n : Byte) : (s.setSlot k a n).index = s.index := rfl
@[simp] theorem State.setSlot_stack (s : State) (k : Fin 16) (a : Word) (n : Byte) : (s.setSlot k a n).stack = s.stack.set k.val a k.isLt := rfl
@[simp] theorem State.setSlot_sp (s : State) (k : Fin 16) (a : Word) (n : Byte) : (s.setSlot k a n).sp = n := rfl
@[simp] theorem State.setSlot_dt (s : State) (k : Fin 16) (a : Word) (n : Byte) : (s.setSlot k a n).dt = s.dt := rfl
@[simp] theorem State.setSlot_st (s : State) (k : Fin 16) (a : Word) (n : Byte) : (s.setSlot k a n).st = s.st := rfl
@[simp] theorem State.setSlot_mem (s : State) (k : Fin 16) (a : Word) (n : Byte) : (s.setSlot k a n).mem = s.mem := rfl
@[simp] theorem State.setSlot_fb (s : State) (k : Fin 16) (a : Word) (n : Byte) : (s.setSlot k a n).fb = s.fb := rfl
@[simp] theorem State.setSlot_key (s : State) (k : Fin 16) (a : Word) (n : Byte) : (s.setSlot k a n).key = s.key := rfl
@[simp] theorem State.setSlot_w (s : State) (k : Fin 16) (a : Word) (n : Byte) : (s.setSlot k a n).w = s.w := rfl
@[simp] theorem State.setSlot_fault (s : State) (k : Fin 16) (a : Word) (n : Byte) : (s.setSlot k a n).fault = s.fault := rfl
@[simp] theorem State.setSlot_draws (s : State) (k : Fin 16) (a : Word) (n : Byte) : (s.setSlot k a n).draws = s.draws := rfl
@[simp] theorem State.setSlot_lapses (s : State) (k : Fin 16) (a : Word) (n : Byte) : (s.setSlot k a n).lapses = s.lapses := rfl
@[simp] theorem State.getReg_setSlot (s : State) (k : Fin 16) (a : Word) (n : Byte) (r0 : Nibble) : (s.setSlot k a n).getReg r0 = s.getReg r0 := rfl
@[simp] theorem State.byteAt_setSlot (s : State) (k : Fin 16) (a : Word) (n : Byte) (a0 : Nat) : (s.setSlot k a n).byteAt a0 = s.byteAt a0 := rfl
@[simp] theorem State.memRead_setSlot (s : State) (k : Fin 16) (a : Word) (n : Byte) (a0 : Nat) : (s.setSlot k a n).memRead a0 = s.memRead a0 := rfl
@[simp] theorem State.keyDown_setSlot (s : State) (k : Fin 16) (a : Word) (n : Byte) (k0 : Nibble) : (s.setSlot k a n).keyDown k0 = s.keyDown k0 := rfl
@[simp] theorem State.indexed_setSlot (s : State) (k : Fin 16) (a : Word) (n : Byte) (k0 : Nat) : (s.setSlot k a n).indexed k0 = s.indexed k0 := rfl

/-! ### setRegFlag -/

@[simp] theorem State.setRegFlag_cfg (s : State) (x : Nibble) (b f : Byte) : (s.setRegFlag x b f).cfg = s.cfg := rfl
@[simp] theorem State.setRegFlag_v (s : State) (x : Nibble) (b f : Byte) : (s.setRegFlag x b f).v = ((s.setReg x b).setReg regVF f).v := rfl
@[simp] theorem State.setRegFlag_pc (s : State) (x : Nibble) (b f : Byte) : (s.setRegFlag x b f).pc = s.pc := rfl
@[simp] theorem State.setRegFlag_index (s : State) (x : Nibble) (b f : Byte) : (s.setRegFlag x b f).index = s.index := rfl
@[simp] theorem State.setRegFlag_stack (s : State) (x : Nibble) (b f : Byte) : (s.setRegFlag x b f).stack = s.stack := rfl
@[simp] theorem State.setRegFlag_sp (s : State) (x : Nibble) (b f : Byte) : (s.setRegFlag x b f).sp = s.sp := rfl
@[simp] theorem State.setRegFlag_dt (s : State) (x : Nibble) (b f : Byte) : (s.setRegFlag x b f).dt = s.dt := rfl
@[simp] theorem State.setRegFlag_st (s : State) (x : Nibble) (b f : Byte) : (s.setRegFlag x b f).st = s.st := rfl
@[simp] theorem State.setRegFlag_mem (s : State) (x : Nibble) (b f : Byte) : (s.setRegFlag x b f).mem = s.mem := rfl
@[simp] theorem State.setRegFlag_fb (s : State) (x : Nibble) (b f : Byte) : (s.setRegFlag x b f).fb = s.fb := rfl
@[simp] theorem State.setRegFlag_key (s : State) (x : Nibble) (b f : Byte) : (s.setRegFlag x b f).key = s.key := rfl
@[simp] theorem State.setRegFlag_w (s : State) (x : Nibble) (b f : Byte) : (s.setRegFlag x b f).w = s.w := rfl
@[simp] theorem State.setRegFlag_fault (s : State) (x : Nibble) (b f : Byte) : (s.setRegFlag x b f).fault = s.fault := rfl
@[simp] theorem State.setRegFlag_draws (s : State) (x : Nibble) (b f : Byte) : (s.setRegFlag x b f).draws = s.draws := rfl
@[simp] theorem State.setRegFlag_lapses (s : State) (x : Nibble) (b f : Byte) : (s.setRegFlag x b f).lapses = s.lapses := rfl
@[simp] theorem State.byteAt_setRegFlag (s : State) (x : Nibble) (b f : Byte) (a0 : Nat) : (s.setRegFlag x b f).byteAt a0 = s.byteAt a0 := rfl
@[simp] theorem State.memRead_setRegFlag (s : State) (x : Nibble) (b f : Byte) (a0 : Nat) : (s.setRegFlag x b f).memRead a0 = s.memRead a0 := rfl
@[simp] theorem State.keyDown_setRegFlag (s : State) (x : Nibble) (b f : Byte) (k0 : Nibble) : (s.setRegFlag x b f).keyDown k0 = s.keyDown k0 := rfl
@[simp] theorem State.indexed_setRegFlag (s : State) (x : Nibble) (b f : Byte) (k0 : Nat) : (s.setRegFlag x b f).indexed k0 = s.indexed k0 := rfl

/-! ### advance -/

@[simp] theorem State.advance_cfg (s : State) : (s.advance).cfg = s.cfg := rfl
@[simp] theorem State.advance_v (s : State) : (s.advance).v = s.v := rfl
@[simp] theorem State.advance_pc (s : State) : (s.advance).pc = s.pc + 2 := rfl
@[simp] theorem State.advance_index (s : State) : (s.advance).index = s.index := rfl
@[simp] theorem State.advance_stack (s : State) : (s.advance).stack = s.stack := rfl
@[simp] theorem State.advance_sp (s : State) : (s.advance).sp = s.sp := rfl
@[simp] theorem State.advance_dt (s : State) : (s.advance).dt = s.dt := rfl
@[simp] theorem State.advance_st (s : State) : (s.advance).st = s.st := rfl
@[simp] theorem State.advance_mem (s : State) : (s.advance).mem = s.mem := rfl
@[simp] theorem State.advance_fb (s : State) : (s.advance).fb = s.fb := rfl
@[simp] theorem State.advance_key (s : State) : (s.advance).key = s.key := rfl
@[simp] theorem State.advance_w (s : State) : (s.advance).w = s.w := rfl
@[simp] theorem State.advance_fault (s : State) : (s.advance).fault = s.fault := rfl
@[simp] theorem State.advance_draws (s : State) : (s.advance).draws = s.draws := rfl
@[simp] theorem State.advance_lapses (s : State) : (s.advance).lapses = s.lapses := rfl
@[simp] theorem State.getReg_advance (s : State) (r0 : Nibble) : (s.advance).getReg r0 = s.getReg r0 := rfl
@[simp] theorem State.byteAt_advance (s : State) (a0 : Nat) : (s.advance).byteAt a0 = s.byteAt a0 := rfl
@[simp] theorem State.memRead_advance (s : State) (a0 : Nat) : (s.advance).memRead a0 = s.memRead a0 := rfl
@[simp] theorem State.keyDown_advance (s : State) (k0 : Nibble) : (s.advance).keyDown k0 = s.keyDown k0 := rfl
@[simp] theorem State.indexed_advance (s : State) (k0 : Nat) : (s.advance).indexed k0 = s.indexed k0 := rfl

/-! ### tick -/

@[simp] theorem State.tick_cfg (s : State) : (s.tick).cfg = s.cfg := rfl
@[simp] theorem State.tick_v (s : State) : (s.tick).v = s.v := rfl
@[simp] theorem State.tick_pc (s : State) : (s.tick).pc = s.pc := rfl
@[simp] theorem State.tick_index (s : State) : (s.tick).index = s.index := rfl
@[simp] theorem State.tick_stack (s : State) : (s.tick).stack = s.stack := rfl
@[simp] theorem State.tick_sp (s : State) : (s.tick).sp = s.sp := rfl
@[simp] theorem State.tick_dt (s : State) : (s.tick).dt = tickTimer s.dt := rfl
@[simp] theorem State.tick_st (s : State) : (s.tick).st = tickTimer s.st := rfl
@[simp] theorem State.tick_mem (s : State) : (s.tick).mem = s.mem := rfl
@[simp] theorem State.tick_fb (s : State) : (s.tick).fb = s.fb := rfl
@[simp] theorem State.tick_key (s : State) : (s.tick).key = s.key := rfl
@[simp] theorem State.tick_w (s : State) : (s.tick).w = s.w := rfl
@[simp] theorem State.tick_fault (s : State) : (s.tick).fault = s.fault := rfl
@[simp] theorem State.tick_draws (s : State) : (s.tick).draws = s.draws := rfl
@[simp] theorem State.tick_lapses (s : State) : (s.tick).lapses = s.lapses := rfl
@[simp] theorem State.getReg_tick (s : State) (r0 : Nibble) : (s.tick).getReg r0 = s.getReg r0 := rfl
@[simp] theorem State.byteAt_tick (s : State) (a0 : Nat) : (s.tick).byteAt a0 = s.byteAt a0 := rfl
@[simp] theorem State.memRead_tick (s : State) (a0 : Nat) : (s.tick).memRead a0 = s.memRead a0 := rfl
@[simp] theorem State.keyDown_tick (s : State) (k0 : Nibble) : (s.tick).keyDown k0 = s.keyDown k0 := rfl
@[simp] theorem State.indexed_tick (s : State) (k0 : Nat) : (s.tick).indexed k0 = s.indexed k0 := rfl

/-! ### lapseWord -/

@[simp] theorem State.lapseWord_cfg (s : State) : (s.lapseWord).cfg = s.cfg := rfl
@[simp] theorem State.lapseWord_v (s : State) : (s.lapseWord).v = s.v := rfl
@[simp] theorem State.lapseWord_pc (s : State) : (s.lapseWord).pc = s.pc := rfl
@[simp] theorem State.lapseWord_index (s : State) : (s.lapseWord).index = s.index := rfl
@[simp] theorem State.lapseWord_stack (s : State) : (s.lapseWord).stack = s.stack := rfl
@[simp] theorem State.lapseWord_sp (s : State) : (s.lapseWord).sp = s.sp := rfl
@[simp] theorem State.lapseWord_dt (s : State) : (s.lapseWord).dt = s.dt := rfl
@[simp] theorem State.lapseWord_st (s : State) : (s.lapseWord).st = s.st := rfl
@[simp] theorem State.lapseWord_mem (s : State) : (s.lapseWord).mem = s.mem := rfl
@[simp] theorem State.lapseWord_fb (s : State) : (s.lapseWord).fb = s.fb := rfl
@[simp] theorem State.lapseWord_key (s : State) : (s.lapseWord).key = s.key := rfl
@[simp] theorem State.lapseWord_w (s : State) : (s.lapseWord).w = Config.lapsedWord s.lapses := rfl
@[simp] theorem State.lapseWord_fault (s : State) : (s.lapseWord).fault = s.fault := rfl
@[simp] theorem State.lapseWord_draws (s : State) : (s.lapseWord).draws = s.draws := rfl
@[simp] theorem State.lapseWord_lapses (s : State) : (s.lapseWord).lapses = s.lapses + 1 := rfl
@[simp] theorem State.getReg_lapseWord (s : State) (r0 : Nibble) : (s.lapseWord).getReg r0 = s.getReg r0 := rfl
@[simp] theorem State.byteAt_lapseWord (s : State) (a0 : Nat) : (s.lapseWord).byteAt a0 = s.byteAt a0 := rfl
@[simp] theorem State.memRead_lapseWord (s : State) (a0 : Nat) : (s.lapseWord).memRead a0 = s.memRead a0 := rfl
@[simp] theorem State.keyDown_lapseWord (s : State) (k0 : Nibble) : (s.lapseWord).keyDown k0 = s.keyDown k0 := rfl
@[simp] theorem State.indexed_lapseWord (s : State) (k0 : Nat) : (s.lapseWord).indexed k0 = s.indexed k0 := rfl

/-! ### setKey -/

@[simp] theorem State.setKey_cfg (s : State) (k : Nibble) (p : Bool) : (s.setKey k p).cfg = s.cfg := rfl
@[simp] theorem State.setKey_v (s : State) (k : Nibble) (p : Bool) : (s.setKey k p).v = s.v := rfl
@[simp] theorem State.setKey_pc (s : State) (k : Nibble) (p : Bool) : (s.setKey k p).pc = s.pc := rfl
@[simp] theorem State.setKey_index (s : State) (k : Nibble) (p : Bool) : (s.setKey k p).index = s.index := rfl
@[simp] theorem State.setKey_stack (s : State) (k : Nibble) (p : Bool) : (s.setKey k p).stack = s.stack := rfl
@[simp] theorem State.setKey_sp (s : State) (k : Nibble) (p : Bool) : (s.setKey k p).sp = s.sp := rfl
@[simp] theorem State.setKey_dt (s : State) (k : Nibble) (p : Bool) : (s.setKey k p).dt = s.dt := rfl
@[simp] theorem State.setKey_st (s : State) (k : Nibble) (p : Bool) : (s.setKey k p).st = s.st := rfl
@[simp] theorem State.setKey_mem (s : State) (k : Nibble) (p : Bool) : (s.setKey k p).mem = s.mem := rfl
@[simp] theorem State.setKey_fb (s : State) (k : Nibble) (p : Bool) : (s.setKey k p).fb = s.fb := rfl
@[simp] theorem State.setKey_key (s : State) (k : Nibble) (p : Bool) : (s.setKey k p).key = s.key.set k.toNat p k.isLt := rfl
@[simp] theorem State.setKey_w (s : State) (k : Nibble) (p : Bool) : (s.setKey k p).w = s.w := rfl
@[simp] theorem State.setKey_fault (s : State) (k : Nibble) (p : Bool) : (s.setKey k p).fault = s.fault := rfl
@[simp] theorem State.setKey_draws (s : State) (k : Nibble) (p : Bool) : (s.setKey k p).draws = s.draws := rfl
@[simp] theorem State.setKey_lapses (s : State) (k : Nibble) (p : Bool) : (s.setKey k p).lapses = s.lapses := rfl
@[simp] theorem State.getReg_setKey (s : State) (k : Nibble) (p : Bool) (r0 : Nibble) : (s.setKey k p).getReg r0 = s.getReg r0 := rfl
@[simp] theorem State.byteAt_setKey (s : State) (k : Nibble) (p : Bool) (a0 : Nat) : (s.setKey k p).byteAt a0 = s.byteAt a0 := rfl
@[simp] theorem State.memRead_setKey (s : State) (k : Nibble) (p : Bool) (a0 : Nat) : (s.setKey k p).memRead a0 = s.memRead a0 := rfl
@[simp] theorem State.indexed_setKey (s : State) (k : Nibble) (p : Bool) (k0 : Nat) : (s.setKey k p).indexed k0 = s.indexed k0 := rfl

/-! ### Registers and keys as read after a write -/

/-- Every register reads back the last value written to it (spec 10 R20). -/
theorem State.getReg_setReg (s : State) (r q : Nibble) (b : Byte) :
    (s.setReg r b).getReg q = if q = r then b else s.getReg q := by
  simp only [State.getReg, State.setReg, Vector.getElem_set]
  by_cases h : q = r
  · simp [h]
  · have : r.toNat ≠ q.toNat := fun e => h (BitVec.eq_of_toNat_eq e.symm)
    simp [h, this]

@[simp] theorem State.getReg_setReg_self (s : State) (r : Nibble) (b : Byte) : (s.setReg r b).getReg r = b := by
  simp [State.getReg_setReg]

theorem State.getReg_setReg_ne (s : State) {r q : Nibble} (b : Byte) (h : q ≠ r) :
    (s.setReg r b).getReg q = s.getReg q := by
  simp [State.getReg_setReg, h]

/-- A result and its flag: VF ends as the flag, the destination as the result unless it is VF (spec 00 R10). -/
theorem State.getReg_setRegFlag (s : State) (x q : Nibble) (b f : Byte) :
    (s.setRegFlag x b f).getReg q = if q = regVF then f else if q = x then b else s.getReg q := by
  simp only [State.setRegFlag, State.getReg_setReg]

/-- A key write changes only that key (spec 60 R187). -/
theorem State.keyDown_setKey (s : State) (k q : Nibble) (p : Bool) :
    (s.setKey k p).keyDown q = if q = k then p else s.keyDown q := by
  simp only [State.keyDown, State.setKey, Vector.getElem_set]
  by_cases h : q = k
  · simp [h]
  · have : k.toNat ≠ q.toNat := fun e => h (BitVec.eq_of_toNat_eq e.symm)
    simp [h, this]

/-- Two states with the same register file read alike. -/
theorem State.v_ext {s t : State} (h : ∀ r, t.getReg r = s.getReg r) : t.v = s.v := by
  apply Vector.ext
  intro i hi
  have := h (BitVec.ofNat 4 i)
  simpa [State.getReg, Nat.mod_eq_of_lt hi] using this

/-! ### A skip -/

@[simp] theorem State.skipIf_true (s : State) : s.skipIf true = s.setPc (s.pc + 2) := rfl

@[simp] theorem State.skipIf_false (s : State) : s.skipIf false = s := rfl

/-- A skip touches the pc alone. -/
theorem State.skipIf_eq (s : State) (b : Bool) : s.skipIf b = s.setPc (if b then s.pc + 2 else s.pc) := by
  cases b <;> rfl

end Sys2Proof.Machine
end

