-- ==== Sys2Proof/Laws/Memory.lean ====
section
/-! SUPPORT. Memory and its controller: reading after writing, the canonical form, and everything Resolve, MemRead and
MemWrite can answer. -/

namespace Sys2Proof.Machine

/-! ### The list of cells -/

/-- A write leaves every other address alone, in any list of cells. -/
theorem Memory.read_write_ne (base : Nat → Byte) (m : Memory) {a q : Nat} (b : Byte) (h : q ≠ a) :
    (m.write base a b).read base q = m.read base q := by
  induction m with
  | nil => by_cases hb : b = base a <;> simp [Memory.write, Memory.read, hb, h]
  | cons c m ih =>
    obtain ⟨k, v⟩ := c
    unfold Memory.write
    split
    · split <;> simp [Memory.read, h]
    · split
      · next _ hk => subst hk; split <;> simp [Memory.read, h]
      · simp [Memory.read, ih]

/-- Below the first address of a rising list nothing is listed. -/
theorem Memory.read_of_lt (base : Nat → Byte) (m : Memory) {a : Nat} (h : ∀ p ∈ m, a < p.1) :
    m.read base a = base a := by
  induction m with
  | nil => rfl
  | cons c m ih =>
    obtain ⟨k, v⟩ := c
    have hk : a < k := h (k, v) (by simp)
    simp only [Memory.read]
    rw [if_neg (by omega)]
    exact ih fun p hp => h p (by simp [hp])

/-- A canonical memory reads back what was written. -/
theorem Memory.read_write_self (base : Nat → Byte) (m : Memory) (h : m.wf base) (a : Nat) (b : Byte) :
    (m.write base a b).read base a = b := by
  induction m with
  | nil =>
    by_cases hb : b = base a
    · simp [Memory.write, Memory.read, ← hb]
    · simp [Memory.write, Memory.read, hb]
  | cons c m ih =>
    obtain ⟨k, v⟩ := c
    obtain ⟨hp, hall⟩ := h
    rw [List.pairwise_cons] at hp
    have htail : Memory.wf base m := ⟨hp.2, fun p hm => hall p (by simp [hm])⟩
    unfold Memory.write
    split
    · next hlt =>
      split
      · next hb =>
        simp only [Memory.read]
        rw [if_neg (by omega), Memory.read_of_lt base m (fun p hm => Nat.lt_trans hlt (hp.1 p hm)), hb]
      · simp [Memory.read]
    · split
      · next hk =>
        subst hk
        split
        · next hb => rw [Memory.read_of_lt base m hp.1, hb]
        · simp [Memory.read]
      · next hk => simp only [Memory.read]; rw [if_neg hk]; exact ih htail

/-- A write adds no address but its own. -/
theorem Memory.mem_write (base : Nat → Byte) (m : Memory) (a : Nat) (b : Byte) (p : Host.Cell)
    (h : p ∈ m.write base a b) : p ∈ m ∨ (p = (a, b) ∧ b ≠ base a) := by
  induction m with
  | nil =>
    unfold Memory.write at h
    split at h <;> simp_all
  | cons c m ih =>
    obtain ⟨k, v⟩ := c
    unfold Memory.write at h
    split at h
    · split at h
      · exact .inl h
      · next hb => rcases List.mem_cons.1 h with rfl | h <;> simp_all
    · split at h
      · split at h
        · exact .inl (by simp [h])
        · next hb => rcases List.mem_cons.1 h with rfl | h <;> simp_all
      · rcases List.mem_cons.1 h with rfl | h
        · simp
        · rcases ih h with h | h <;> simp [h]

/-- A write inside the memory keeps the canonical form. -/
theorem Memory.wf_write (base : Nat → Byte) (m : Memory) (h : m.wf base) {a : Nat} (ha : a < Config.memSize) (b : Byte) :
    (m.write base a b).wf base := by
  refine ⟨?_, ?_⟩
  · obtain ⟨hp, -⟩ := h
    induction m with
    | nil => unfold Memory.write; split <;> simp
    | cons c m ih =>
      obtain ⟨k, v⟩ := c
      have hp' := List.pairwise_cons.1 hp
      unfold Memory.write
      split
      · next hlt =>
        split
        · exact hp
        · refine List.pairwise_cons.2 ⟨?_, hp⟩
          intro p hm
          rcases List.mem_cons.1 hm with rfl | hm
          · exact hlt
          · exact Nat.lt_trans hlt (hp'.1 p hm)
      · next hnlt =>
        split
        · next hk =>
          subst hk
          split
          · exact hp'.2
          · exact List.pairwise_cons.2 ⟨hp'.1, hp'.2⟩
        · next hk =>
          refine List.pairwise_cons.2 ⟨?_, ih hp'.2⟩
          intro p hm
          rcases Memory.mem_write base m a b p hm with hm | ⟨rfl, -⟩
          · exact hp'.1 p hm
          · simp only; omega
  · intro p hp
    rcases Memory.mem_write base m a b p hp with hm | ⟨rfl, hb⟩
    · exact h.2 p hm
    · exact ⟨ha, hb⟩

/-! ### Bytes of the state -/

theorem State.byteAt_setByte_ne (s : State) {a q : Nat} (b : Byte) (h : q ≠ a) :
    (s.setByte a b).byteAt q = s.byteAt q :=
  Memory.read_write_ne _ _ b h

theorem State.byteAt_setByte_self (s : State) (h : s.mem.wf (resetByte s.cfg)) (a : Nat) (b : Byte) :
    (s.setByte a b).byteAt a = b :=
  Memory.read_write_self _ _ h a b

theorem State.byteAt_setByte (s : State) (h : s.mem.wf (resetByte s.cfg)) (a q : Nat) (b : Byte) :
    (s.setByte a b).byteAt q = if q = a then b else s.byteAt q := by
  by_cases hq : q = a
  · subst hq; simp [State.byteAt_setByte_self s h]
  · simp [State.byteAt_setByte_ne s b hq, hq]

theorem State.wf_setByte (s : State) (h : s.mem.wf (resetByte s.cfg)) {a : Nat} (ha : a < Config.memSize) (b : Byte) :
    (s.setByte a b).mem.wf (resetByte (s.setByte a b).cfg) :=
  Memory.wf_write _ _ h ha b

/-! ### The memory controller -/

/-- Everything Resolve can do (spec 20 R57). -/
theorem resolve_cases (policy : BoundsPolicy) (a : Nat) :
    (a ≤ 0xFFF ∧ resolve policy a = .ok a) ∨
    (0xFFF < a ∧ policy = .fault ∧ resolve policy a = .error (.memOutOfRange a)) ∨
    (0xFFF < a ∧ policy = .wrap ∧ resolve policy a = .ok (a % 4096)) ∨
    (0xFFF < a ∧ policy = .clamp ∧ resolve policy a = .ok 0xFFF) := by
  by_cases h : a ≤ 0xFFF
  · exact .inl ⟨h, by simp [resolve, h]⟩
  · cases policy <;> simp [resolve, h] <;> omega

/-- An address in range is itself. -/
theorem resolve_of_le {policy : BoundsPolicy} {a : Nat} (h : a ≤ 0xFFF) : resolve policy a = .ok a := by
  simp [resolve, h]

/-- A resolved address is an address of the memory. -/
theorem resolve_lt {policy : BoundsPolicy} {a k : Nat} (h : resolve policy a = .ok k) : k < Config.memSize := by
  rcases resolve_cases policy a with ⟨_, e⟩ | ⟨_, _, e⟩ | ⟨_, _, e⟩ | ⟨_, _, e⟩ <;> rw [e] at h <;> cases h <;>
    simp only [Config.memSize] <;> omega

/-- Resolve raises only MemOutOfRange, with the address it was given, out of range, under Fault. -/
theorem resolve_error {policy : BoundsPolicy} {a : Nat} {c : FaultCause} (h : resolve policy a = .error c) :
    c = .memOutOfRange a ∧ 0xFFF < a ∧ policy = .fault := by
  rcases resolve_cases policy a with ⟨_, e⟩ | ⟨ha, hp, e⟩ | ⟨_, _, e⟩ | ⟨_, _, e⟩ <;> rw [e] at h <;> cases h
  exact ⟨rfl, ha, hp⟩

/-- If MemRead answers a byte, it is the one at the resolved address. -/
theorem State.memRead_ok {s : State} {a : Nat} {b : Byte} (h : s.memRead a = .ok b) :
    ∃ k, resolve s.cfg.oob a = .ok k ∧ s.byteAt k = b := by
  unfold State.memRead at h
  split at h
  · next k hk => cases h; exact ⟨k, hk, rfl⟩
  · cases h

theorem State.memRead_eq {s : State} {a k : Nat} (h : resolve s.cfg.oob a = .ok k) : s.memRead a = .ok (s.byteAt k) := by
  simp [State.memRead, h]

theorem State.memRead_error {s : State} {a : Nat} {c : FaultCause} (h : s.memRead a = .error c) :
    c = .memOutOfRange a ∧ 0xFFF < a ∧ s.cfg.oob = .fault := by
  unfold State.memRead at h
  split at h
  · cases h
  · next e he => cases h; exact resolve_error he

/-- If MemWrite answers a state, it is the one with the byte at the resolved address. -/
theorem State.memWrite_ok {s t : State} {a : Nat} {b : Byte} (h : s.memWrite a b = .ok t) :
    ∃ k, resolve s.cfg.oob a = .ok k ∧ t = s.setByte k b := by
  unfold State.memWrite at h
  split at h
  · next k hk => cases h; exact ⟨k, hk, rfl⟩
  · cases h

theorem State.memWrite_eq {s : State} {a k : Nat} (h : resolve s.cfg.oob a = .ok k) (b : Byte) :
    s.memWrite a b = .ok (s.setByte k b) := by
  simp [State.memWrite, h]

theorem State.memWrite_error {s : State} {a : Nat} {b : Byte} {c : FaultCause} (h : s.memWrite a b = .error c) :
    c = .memOutOfRange a ∧ 0xFFF < a ∧ s.cfg.oob = .fault := by
  unfold State.memWrite at h
  split at h
  · cases h
  · next e he => cases h; exact resolve_error he

/-- The fetch addresses and MemRead in range (spec 20 R57). -/
theorem State.memRead_of_le {s : State} {a : Nat} (h : a ≤ 0xFFF) : s.memRead a = .ok (s.byteAt a) :=
  State.memRead_eq (resolve_of_le h)

end Sys2Proof.Machine
end

