-- ==== Sys2Proof/Laws/Ops.lean ====
section
/-! SUPPORT. What each shared operation can do, said once: finish, the stack, the key index, the key scan, the flags,
loops over rows and registers. -/

namespace Sys2Proof.Machine

/-! ### The end of a handler that can raise -/

@[simp] theorem finish_ok (s t : State) : finish s (.ok t) = .next t := rfl

@[simp] theorem finish_error (s : State) (c : FaultCause) : finish s (.error c) = .next (s.raise c) := rfl

/-- A handler that can raise always answers a next state: the one it made, or the one it began with and the fault. -/
theorem finish_next {s t : State} {r : Except FaultCause State} (h : finish s r = .next t) :
    r = .ok t ∨ ∃ c, r = .error c ∧ t = s.raise c := by
  cases r with
  | ok u => exact .inl (by simpa using h)
  | error c => exact .inr ⟨c, rfl, by simpa using h.symm⟩

/-! ### Loops -/

/-- What each turn of a loop keeps, the loop keeps. -/
theorem foldlM_keeps {σ ε ι : Type} (P : σ → Prop) (f : σ → ι → Except ε σ) (l : List ι)
    (hf : ∀ t i u, P t → f t i = .ok u → P u) (s t : σ) (hs : P s) (h : l.foldlM f s = .ok t) : P t := by
  induction l generalizing s with
  | nil => cases h; exact hs
  | cons i l ih =>
    rw [List.foldlM_cons] at h
    cases hi : f s i with
    | error e => rw [hi] at h; cases h
    | ok u => rw [hi] at h; exact ih u (hf s i u hs hi) h

/-- A loop ends in an error at its first turn that does. -/
theorem foldlM_error {σ ε ι : Type} (f : σ → ι → Except ε σ) (l : List ι) (s : σ) (e : ε)
    (h : l.foldlM f s = .error e) : ∃ t, ∃ i ∈ l, f t i = .error e := by
  induction l generalizing s with
  | nil => cases h
  | cons i l ih =>
    rw [List.foldlM_cons] at h
    cases hi : f s i with
    | error e' => rw [hi] at h; cases h; exact ⟨s, i, by simp, hi⟩
    | ok u =>
      rw [hi] at h
      obtain ⟨t, j, hj, he⟩ := ih u h
      exact ⟨t, j, by simp [hj], he⟩

/-- A loop over `0 .. n` is the loop over `0 .. n - 1` and one more turn. -/
theorem foldlM_range_succ {σ ε : Type} (f : σ → Nat → Except ε σ) (n : Nat) (s : σ) :
    (List.range (n + 1)).foldlM f s = (List.range n).foldlM f s >>= fun t => f t n := by
  rw [List.range_succ, List.foldlM_append]
  congr 1
  funext t
  rw [List.foldlM_cons]
  cases f t n <;> rfl

/-- A loop's first error, where the turns before it go well. -/
theorem foldlM_range_error {σ ε : Type} (f : σ → Nat → Except ε σ) {n k : Nat} (hk : k < n) (s t : σ) (e : ε)
    (hpre : (List.range k).foldlM f s = .ok t) (he : f t k = .error e) : (List.range n).foldlM f s = .error e := by
  induction n with
  | zero => omega
  | succ n ih =>
    rw [foldlM_range_succ]
    rcases Nat.lt_succ_iff_lt_or_eq.1 hk with h | rfl
    · rw [ih h]; rfl
    · rw [hpre]; exact he

/-! ### The stack -/

/-- Everything Push can do (spec 41 R100). -/
theorem State.push_cases (s : State) (a : Word) :
    (∃ h : s.sp.toNat < 16, s.cfg.stackPolicy ≠ .wrap ∧ s.push a = .ok (s.setSlot ⟨s.sp.toNat, h⟩ a (s.sp + 1))) ∨
    (16 ≤ s.sp.toNat ∧ s.cfg.stackPolicy = .fault ∧ s.push a = .error (.stackOverflow s.sp)) ∨
    (16 ≤ s.sp.toNat ∧ s.cfg.stackPolicy = .clamp ∧ s.push a = .ok (s.setSlot 15 a s.sp)) ∨
    (s.cfg.stackPolicy = .wrap ∧
      s.push a = .ok (s.setSlot (Fin.ofNat 16 (s.sp.toNat % 16)) a (BitVec.ofNat 8 ((s.sp.toNat + 1) % 16)))) := by
  unfold State.push
  cases hp : s.cfg.stackPolicy <;> by_cases h : s.sp.toNat < 16 <;> simp [h] <;> omega

/-- Push touches the stack and `sp` alone. -/
theorem State.push_frame {s t : State} {a : Word} (h : s.push a = .ok t) : t = { s with stack := t.stack, sp := t.sp } := by
  rcases s.push_cases a with ⟨_, _, e⟩ | ⟨_, _, e⟩ | ⟨_, _, e⟩ | ⟨_, e⟩ <;> rw [e] at h <;> cases h <;> rfl

/-- Push raises only StackOverflow, under Fault, with the stack full. -/
theorem State.push_error {s : State} {a : Word} {c : FaultCause} (h : s.push a = .error c) :
    c = .stackOverflow s.sp ∧ 16 ≤ s.sp.toNat ∧ s.cfg.stackPolicy = .fault := by
  rcases s.push_cases a with ⟨_, _, e⟩ | ⟨h1, h2, e⟩ | ⟨_, _, e⟩ | ⟨_, e⟩ <;> rw [e] at h <;> cases h
  exact ⟨rfl, h1, h2⟩

/-- Everything Pop's choice of a slot can do (spec 41 R100). -/
theorem State.popSlot_cases (s : State) :
    (s.sp = 0 ∧ s.cfg.stackPolicy = .fault ∧ s.popSlot = .error (.stackUnderflow s.sp)) ∨
    (s.sp ≠ 0 ∧ s.cfg.stackPolicy ≠ .wrap ∧ s.popSlot = .ok (s.sp.toNat - 1)) ∨
    (s.sp = 0 ∧ s.cfg.stackPolicy = .clamp ∧ s.popSlot = .ok 0) ∨
    (s.cfg.stackPolicy = .wrap ∧ s.popSlot = .ok ((s.sp.toNat + 15) % 16)) := by
  unfold State.popSlot
  cases hp : s.cfg.stackPolicy <;> by_cases h : s.sp = 0#8 <;> simp [h]

/-! ### The keypad -/

/-- Everything KeyIndex can do (spec 41 R101). -/
theorem keyIndex_cases (policy : BoundsPolicy) (v : Byte) :
    (v.toNat ≤ 15 ∧ keyIndex policy v = .ok (v.setWidth 4)) ∨
    (15 < v.toNat ∧ policy = .fault ∧ keyIndex policy v = .error (.keyOutOfRange v)) ∨
    (15 < v.toNat ∧ policy = .wrap ∧ keyIndex policy v = .ok (BitVec.ofNat 4 (v.toNat % 16))) ∨
    (15 < v.toNat ∧ policy = .clamp ∧ keyIndex policy v = .ok 15) := by
  unfold keyIndex
  by_cases h : v.toNat ≤ 15 <;> cases policy <;> simp [h] <;> omega

/-- The scan finds the lowest pressed key (spec 45 R169). -/
theorem State.firstKey_some {s : State} {k : Nat} (h : s.firstKey = some k) :
    k < 16 ∧ s.keyDown (BitVec.ofNat 4 k) = true ∧ ∀ j, j < k → s.keyDown (BitVec.ofNat 4 j) = false := by
  unfold State.firstKey at h
  obtain ⟨hk, i, hi, hik, hlt⟩ := List.find?_eq_some_iff_getElem.1 h
  simp only [List.getElem_range] at hik hlt
  subst hik
  refine ⟨by simpa using hi, hk, fun j hj => ?_⟩
  simpa using hlt j hj

/-- The scan finds nothing when no key is pressed. -/
theorem State.firstKey_none {s : State} (h : s.firstKey = none) (k : Nibble) : s.keyDown k = false := by
  unfold State.firstKey at h
  have := List.find?_eq_none.1 h k.toNat (by simpa using k.isLt)
  simpa using this

/-! ### Flags -/

theorem flagByte_eq (b : Bool) : flagByte b = if b then 1 else 0 := rfl

@[simp] theorem flagByte_true : flagByte true = 1 := rfl

@[simp] theorem flagByte_false : flagByte false = 0 := rfl

/-- The bit a right shift drops, as a number. -/
theorem lowBitFlag_eq (b : Byte) : lowBitFlag b = BitVec.ofNat 8 (b.toNat % 2) := by
  have h2 : b.getLsbD 0 = decide (b.toNat % 2 = 1) := by simp only [BitVec.getLsbD, Nat.testBit_zero]
  rw [lowBitFlag, h2]
  rcases Nat.mod_two_eq_zero_or_one b.toNat with h | h <;> simp [h]

/-- The bit a left shift drops, as a number. -/
theorem highBitFlag_eq (b : Byte) : highBitFlag b = BitVec.ofNat 8 (b.toNat / 128) := by
  have h2 : b.getLsbD 7 = decide (128 ≤ b.toNat) := by
    have := BitVec.msb_eq_decide b
    rwa [BitVec.msb_eq_getLsbD_last] at this
  have := b.isLt
  rw [highBitFlag, h2]
  by_cases h : 128 ≤ b.toNat
  · have : b.toNat / 128 = 1 := by omega
    simp [h, this]
  · have : b.toNat / 128 = 0 := by omega
    simp [h, this]

/-! ### What a register write leaves alone -/

/-- Writing one register sets it and nothing else. -/
theorem setReg_setsReg (s : State) (x : Nibble) (b : Byte) : SetsReg s (s.setReg x b) x b :=
  ⟨State.getReg_setReg_self s x b, fun _ h => State.getReg_setReg_ne s b h, rfl, fun _ => rfl⟩

/-- Writing a result and its flag sets those and nothing else (spec 00 R10). -/
theorem setRegFlag_setsRegAndFlag (s : State) (x : Nibble) (b f : Byte) :
    SetsRegAndFlag s (s.setRegFlag x b f) x b f :=
  ⟨(State.getReg_setRegFlag s x _ b f).trans (if_pos rfl),
    fun h => (State.getReg_setRegFlag s x x b f).trans ((if_neg h).trans (if_pos rfl)),
    fun r h h' => (State.getReg_setRegFlag s x r b f).trans ((if_neg h').trans (if_neg h)), rfl, fun _ => rfl⟩

end Sys2Proof.Machine
end

