-- ==== Sys2Proof/Laws/Blocks.lean ====
section
/-! SUPPORT. What the loops of block store and block load do. -/

namespace Sys2Proof.Machine

/-- One store: the byte goes where the memory controller resolves `I + i`. -/
theorem State.storeReg_ok {t u : State} {i : Nat} (h : t.storeReg i = .ok u) :
    ∃ k, resolve t.cfg.oob (t.indexed i) = .ok k ∧ u = t.setByte k (t.getReg (BitVec.ofNat 4 i)) :=
  State.memWrite_ok h

/-- The stores that went well: only memory changed, every address resolved, the canonical form is kept, and each byte
is the last one stored to it, or as before. -/
theorem storeLoop_ok {s : State} (n : Nat) {t : State} (h : (List.range n).foldlM State.storeReg s = .ok t) :
    t = s.setMem t.mem ∧ (∀ i, i < n → ∃ k, resolve s.cfg.oob (s.indexed i) = .ok k) ∧
    (s.mem.wf (resetByte s.cfg) → t.mem.wf (resetByte s.cfg)) ∧
    (∀ a, (∀ i, i < n → resolve s.cfg.oob (s.indexed i) ≠ .ok a) → t.byteAt a = s.byteAt a) ∧
    (s.mem.wf (resetByte s.cfg) → ∀ a i, i < n → resolve s.cfg.oob (s.indexed i) = .ok a →
      (∀ j, i < j → j < n → resolve s.cfg.oob (s.indexed j) ≠ .ok a) → t.byteAt a = s.getReg (BitVec.ofNat 4 i)) := by
  induction n generalizing t with
  | zero =>
    cases h
    exact ⟨rfl, fun i hi => absurd hi (by omega), id, fun _ _ => rfl, fun _ _ i hi => absurd hi (by omega)⟩
  | succ n ih =>
    rw [foldlM_range_succ] at h
    cases hu : (List.range n).foldlM State.storeReg s with
    | error e => rw [hu] at h; cases h
    | ok u =>
      rw [hu] at h
      obtain ⟨hmem, hres, hwf, hsame, hlast⟩ := ih hu
      obtain ⟨k, hk, rfl⟩ := State.storeReg_ok h
      have hcfg : u.cfg = s.cfg := by rw [hmem]; rfl
      have hidx : u.indexed n = s.indexed n := by rw [hmem]; rfl
      have hreg : ∀ r, u.getReg r = s.getReg r := fun r => by rw [hmem]; rfl
      rw [hcfg, hidx] at hk
      have hwf' : s.mem.wf (resetByte s.cfg) → u.mem.wf (resetByte u.cfg) := fun hs => by rw [hcfg]; exact hwf hs
      refine ⟨?_, ?_, ?_, ?_, ?_⟩
      · rw [hmem]; rfl
      · intro i hi
        rcases Nat.lt_succ_iff_lt_or_eq.1 hi with hi | rfl
        · exact hres i hi
        · exact ⟨k, hk⟩
      · intro hs
        have := State.wf_setByte u (hwf' hs) (resolve_lt hk) (u.getReg (BitVec.ofNat 4 n))
        rwa [State.setByte_cfg, hcfg] at this
      · intro a ha
        rw [State.byteAt_setByte_ne, hsame a fun i hi => ha i (by omega)]
        rintro rfl
        exact ha n (by omega) hk
      · intro hs a i hi hia hlater
        rw [State.byteAt_setByte u (hwf' hs), hreg]
        rcases Nat.lt_succ_iff_lt_or_eq.1 hi with hi | rfl
        · rw [if_neg ?_, hlast hs a i hi hia fun j h1 h2 => hlater j h1 (by omega)]
          rintro rfl
          exact hlater n hi (by omega) hk
        · rw [hia] at hk
          cases hk
          rw [if_pos rfl]

/-- The stores go well when every address resolves. -/
theorem storeLoop_total {s : State} (n : Nat) (h : ∀ i, i < n → ∃ k, resolve s.cfg.oob (s.indexed i) = .ok k) :
    ∃ t, (List.range n).foldlM State.storeReg s = .ok t := by
  induction n with
  | zero => exact ⟨s, rfl⟩
  | succ n ih =>
    obtain ⟨u, hu⟩ := ih fun i hi => h i (by omega)
    obtain ⟨k, hk⟩ := h n (by omega)
    obtain ⟨hmem, -⟩ := storeLoop_ok n hu
    have hcfg : u.cfg = s.cfg := by rw [hmem]; rfl
    have hidx : u.indexed n = s.indexed n := by rw [hmem]; rfl
    refine ⟨u.setByte k (u.getReg (BitVec.ofNat 4 n)), (foldlM_range_succ _ _ _).trans ?_⟩
    rw [hu]
    exact State.memWrite_eq (by rw [hcfg, hidx]; exact hk) _

/-- The stores raise for the first address that does not resolve. -/
theorem storeLoop_error {s : State} {n k : Nat} (hk : k < n) {c : FaultCause}
    (hpre : ∀ i, i < k → ∃ a, resolve s.cfg.oob (s.indexed i) = .ok a) (he : resolve s.cfg.oob (s.indexed k) = .error c) :
    (List.range n).foldlM State.storeReg s = .error c := by
  obtain ⟨u, hu⟩ := storeLoop_total k hpre
  obtain ⟨hmem, -⟩ := storeLoop_ok k hu
  have hcfg : u.cfg = s.cfg := by rw [hmem]; rfl
  have hidx : u.indexed k = s.indexed k := by rw [hmem]; rfl
  refine foldlM_range_error State.storeReg hk s u c hu ?_
  simp only [State.storeReg, State.memWrite, hcfg, hidx, he]

/-- What the stores can raise: an address out of range, under Fault. -/
theorem storeLoop_raises {s : State} (n : Nat) {c : FaultCause} (h : (List.range n).foldlM State.storeReg s = .error c) :
    ∃ i, i < n ∧ c = .memOutOfRange (s.indexed i) ∧ 0xFFF < s.indexed i ∧ s.cfg.oob = .fault := by
  induction n with
  | zero => cases h
  | succ n ih =>
    rw [foldlM_range_succ] at h
    cases hu : (List.range n).foldlM State.storeReg s with
    | error e =>
      rw [hu] at h
      cases h
      obtain ⟨i, hi, hrest⟩ := ih hu
      exact ⟨i, by omega, hrest⟩
    | ok u =>
      rw [hu] at h
      obtain ⟨hmem, -⟩ := storeLoop_ok n hu
      have hcfg : u.cfg = s.cfg := by rw [hmem]; rfl
      have hidx : u.indexed n = s.indexed n := by rw [hmem]; rfl
      obtain ⟨hc, ha, hp⟩ := State.memWrite_error h
      rw [hidx] at hc ha
      rw [hcfg] at hp
      exact ⟨n, by omega, hc, ha, hp⟩

/-- One load: the byte comes from where the memory controller resolves `I + i`. -/
theorem State.loadReg_ok {t u : State} {i : Nat} (h : t.loadReg i = .ok u) :
    ∃ b, t.memRead (t.indexed i) = .ok b ∧ u = t.setReg (BitVec.ofNat 4 i) b := by
  unfold State.loadReg at h
  cases hb : t.memRead (t.indexed i) with
  | error e => rw [hb] at h; cases h
  | ok b => rw [hb] at h; cases h; exact ⟨b, rfl, rfl⟩

/-- The loads that went well: only registers changed, each of the first `n` holds its byte, the others are as
before. -/
theorem loadLoop_ok {s : State} (n : Nat) (hn : n ≤ 16) {t : State} (h : (List.range n).foldlM State.loadReg s = .ok t) :
    t = { s with v := t.v } ∧ (∀ i, i < n → s.memRead (s.indexed i) = .ok (t.getReg (BitVec.ofNat 4 i))) ∧
    ∀ r : Nibble, n ≤ r.toNat → t.getReg r = s.getReg r := by
  induction n generalizing t with
  | zero => cases h; exact ⟨rfl, fun i hi => absurd hi (by omega), fun _ _ => rfl⟩
  | succ n ih =>
    rw [foldlM_range_succ] at h
    cases hu : (List.range n).foldlM State.loadReg s with
    | error e => rw [hu] at h; cases h
    | ok u =>
      rw [hu] at h
      obtain ⟨hv, hin, hout⟩ := ih (by omega) hu
      obtain ⟨b, hb, rfl⟩ := State.loadReg_ok h
      have hread : u.memRead (u.indexed n) = s.memRead (s.indexed n) := by rw [hv]; rfl
      rw [hread] at hb
      have hnat : ∀ i, i < 16 → (BitVec.ofNat 4 i).toNat = i := fun i hi => by simp; omega
      refine ⟨?_, ?_, ?_⟩
      · rw [hv]; rfl
      · intro i hi
        rw [State.getReg_setReg]
        rcases Nat.lt_succ_iff_lt_or_eq.1 hi with hi | rfl
        · rw [if_neg ?_]
          · exact hin i hi
          · intro he
            have := congrArg BitVec.toNat he
            rw [hnat i (by omega), hnat n (by omega)] at this
            omega
        · rw [if_pos rfl]; exact hb
      · intro r hr
        rw [State.getReg_setReg, if_neg ?_]
        · exact hout r (by omega)
        · rintro rfl
          rw [hnat n (by omega)] at hr
          omega

/-- The loads go well when every address can be read. -/
theorem loadLoop_total {s : State} (n : Nat) (hn : n ≤ 16) (h : ∀ i, i < n → ∃ b, s.memRead (s.indexed i) = .ok b) :
    ∃ t, (List.range n).foldlM State.loadReg s = .ok t := by
  induction n with
  | zero => exact ⟨s, rfl⟩
  | succ n ih =>
    obtain ⟨u, hu⟩ := ih (by omega) fun i hi => h i (by omega)
    obtain ⟨b, hb⟩ := h n (by omega)
    obtain ⟨hv, -⟩ := loadLoop_ok n (by omega) hu
    have hread : u.memRead (u.indexed n) = s.memRead (s.indexed n) := by rw [hv]; rfl
    refine ⟨u.setReg (BitVec.ofNat 4 n) b, (foldlM_range_succ _ _ _).trans ?_⟩
    rw [hu]
    change u.loadReg n = _
    unfold State.loadReg
    rw [hread, hb]
    rfl

/-- The loads raise for the first address that cannot be read. -/
theorem loadLoop_error {s : State} {n k : Nat} (hn : n ≤ 16) (hk : k < n) {c : FaultCause}
    (hpre : ∀ i, i < k → ∃ b, s.memRead (s.indexed i) = .ok b) (he : s.memRead (s.indexed k) = .error c) :
    (List.range n).foldlM State.loadReg s = .error c := by
  obtain ⟨u, hu⟩ := loadLoop_total k (by omega) hpre
  obtain ⟨hv, -⟩ := loadLoop_ok k (by omega) hu
  have hread : u.memRead (u.indexed k) = s.memRead (s.indexed k) := by rw [hv]; rfl
  refine foldlM_range_error State.loadReg hk s u c hu ?_
  unfold State.loadReg
  rw [hread, he]
  rfl

/-- What the loads can raise: an address out of range, under Fault. -/
theorem loadLoop_raises {s : State} (n : Nat) (hn : n ≤ 16) {c : FaultCause} (h : (List.range n).foldlM State.loadReg s = .error c) :
    ∃ i, i < n ∧ c = .memOutOfRange (s.indexed i) ∧ 0xFFF < s.indexed i ∧ s.cfg.oob = .fault := by
  induction n with
  | zero => cases h
  | succ n ih =>
    rw [foldlM_range_succ] at h
    cases hu : (List.range n).foldlM State.loadReg s with
    | error e =>
      rw [hu] at h
      cases h
      obtain ⟨i, hi, hrest⟩ := ih (by omega) hu
      exact ⟨i, by omega, hrest⟩
    | ok u =>
      rw [hu] at h
      obtain ⟨hv, -⟩ := loadLoop_ok n (by omega) hu
      have hcfg : u.cfg = s.cfg := by rw [hv]
      have hidx : u.indexed n = s.indexed n := by rw [hv]; rfl
      replace h : u.loadReg n = .error c := h
      unfold State.loadReg at h
      cases hb : u.memRead (u.indexed n) with
      | ok b => rw [hb] at h; cases h
      | error e =>
        rw [hb] at h
        cases h
        obtain ⟨hc, ha, hp⟩ := State.memRead_error hb
        rw [hidx] at hc ha
        rw [hcfg] at hp
        exact ⟨n, by omega, hc, ha, hp⟩

end Sys2Proof.Machine
end

