-- ==== Sys2Proof/Laws/Decode.lean ====
section
/-! SUPPORT. The fields of a word as arithmetic on its value, the value of a word put together from fields, and the
opcode table's masks as conditions on fields: with these, questions about encodings are linear arithmetic. -/

namespace Sys2Proof

/-! ### Fields as arithmetic -/

theorem fieldG_toNat (w : Word) : (fieldG w).toNat = w.toNat / 4096 := by
  have := w.isLt
  simp only [fieldG, BitVec.extractLsb'_toNat, Nat.shiftRight_eq_div_pow]
  omega

theorem fieldX_toNat (w : Word) : (fieldX w).toNat = w.toNat / 256 % 16 := by
  simp only [fieldX, BitVec.extractLsb'_toNat, Nat.shiftRight_eq_div_pow]

theorem fieldY_toNat (w : Word) : (fieldY w).toNat = w.toNat / 16 % 16 := by
  simp only [fieldY, BitVec.extractLsb'_toNat, Nat.shiftRight_eq_div_pow]

theorem fieldN_toNat (w : Word) : (fieldN w).toNat = w.toNat % 16 := by
  simp only [fieldN, BitVec.extractLsb'_toNat, Nat.shiftRight_zero]

theorem fieldNN_toNat (w : Word) : (fieldNN w).toNat = w.toNat % 256 := by
  simp only [fieldNN, BitVec.extractLsb'_toNat, Nat.shiftRight_zero]

theorem fieldNNN_toNat (w : Word) : (fieldNNN w).toNat = w.toNat % 4096 := by
  simp only [fieldNNN, BitVec.extractLsb'_toNat, Nat.shiftRight_zero]

theorem fieldXY_toNat (w : Word) : (fieldXY w).toNat = w.toNat / 16 % 256 := by
  simp only [fieldXY, BitVec.extractLsb'_toNat, Nat.shiftRight_eq_div_pow]

/-! ### Words put together from fields -/

/-- `a ++ b` has `a` in the high bits (spec 00 R7). -/
theorem append_toNat {m n : Nat} (a : BitVec m) (b : BitVec n) : (a ++ b).toNat = a.toNat * 2 ^ n + b.toNat := by
  rw [BitVec.toNat_append, ← Nat.shiftLeft_add_eq_or_of_lt b.isLt, Nat.shiftLeft_eq]

/-- Format A of spec 30 R72. -/
theorem formatA_toNat (g : Nibble) (nnn : Addr) : (g ++ nnn : Word).toNat = g.toNat * 4096 + nnn.toNat :=
  append_toNat g nnn

/-- Format XNN of spec 30 R72. -/
theorem formatXNN_toNat (g x : Nibble) (nn : Byte) :
    (g ++ x ++ nn : Word).toNat = g.toNat * 4096 + x.toNat * 256 + nn.toNat := by
  have h1 := append_toNat (g ++ x) nn
  have h2 := append_toNat g x
  rw [h2] at h1
  exact h1.trans (by omega)

/-- Formats XY, XYN and XS of spec 30 R72. -/
theorem formatXYN_toNat (g x y n : Nibble) :
    (g ++ x ++ y ++ n : Word).toNat = g.toNat * 4096 + x.toNat * 256 + y.toNat * 16 + n.toNat := by
  have h1 := append_toNat (g ++ x ++ y) n
  have h2 := append_toNat (g ++ x) y
  have h3 := append_toNat g x
  rw [h2, h3] at h1
  exact h1.trans (by omega)

/-- Format Z of spec 30 R72. -/
theorem formatZ_toNat (g : Nibble) (ign : BitVec 8) (n : Nibble) :
    (g ++ ign ++ n : Word).toNat = g.toNat * 4096 + ign.toNat * 16 + n.toNat := by
  have h1 := append_toNat (g ++ ign) n
  have h2 := append_toNat g ign
  rw [h2] at h1
  exact h1.trans (by omega)

/-- The two bytes of a word put together again are the word (spec 20 R52). -/
theorem joinBytes_hi_lo (w : Word) : joinBytes (hiByte w) (loByte w) = w := by
  have h : (joinBytes (hiByte w) (loByte w)).toNat = (hiByte w).toNat * 256 + (loByte w).toNat := append_toNat _ _
  apply BitVec.eq_of_toNat_eq
  rw [h]
  have := w.isLt
  simp only [hiByte, loByte, BitVec.extractLsb'_toNat, Nat.shiftRight_eq_div_pow]
  omega

/-! ### Fields of a word put together from fields -/

theorem fieldG_formatA (g : Nibble) (nnn : Addr) : fieldG (g ++ nnn : Word) = g := by
  apply BitVec.eq_of_toNat_eq
  rw [fieldG_toNat, formatA_toNat]
  have := nnn.isLt
  omega

theorem fieldNNN_formatA (g : Nibble) (nnn : Addr) : fieldNNN (g ++ nnn : Word) = nnn := by
  apply BitVec.eq_of_toNat_eq
  rw [fieldNNN_toNat, formatA_toNat]
  have := nnn.isLt
  omega

theorem fieldG_formatXNN (g x : Nibble) (nn : Byte) : fieldG (g ++ x ++ nn : Word) = g := by
  apply BitVec.eq_of_toNat_eq
  rw [fieldG_toNat, formatXNN_toNat]
  have := x.isLt
  have := nn.isLt
  omega

theorem fieldX_formatXNN (g x : Nibble) (nn : Byte) : fieldX (g ++ x ++ nn : Word) = x := by
  apply BitVec.eq_of_toNat_eq
  rw [fieldX_toNat, formatXNN_toNat]
  have := x.isLt
  have := nn.isLt
  omega

theorem fieldNN_formatXNN (g x : Nibble) (nn : Byte) : fieldNN (g ++ x ++ nn : Word) = nn := by
  apply BitVec.eq_of_toNat_eq
  rw [fieldNN_toNat, formatXNN_toNat]
  have := nn.isLt
  omega

theorem fieldG_formatXYN (g x y n : Nibble) : fieldG (g ++ x ++ y ++ n : Word) = g := by
  apply BitVec.eq_of_toNat_eq
  rw [fieldG_toNat, formatXYN_toNat]
  have := x.isLt
  have := y.isLt
  have := n.isLt
  omega

theorem fieldX_formatXYN (g x y n : Nibble) : fieldX (g ++ x ++ y ++ n : Word) = x := by
  apply BitVec.eq_of_toNat_eq
  rw [fieldX_toNat, formatXYN_toNat]
  have := x.isLt
  have := y.isLt
  have := n.isLt
  omega

theorem fieldY_formatXYN (g x y n : Nibble) : fieldY (g ++ x ++ y ++ n : Word) = y := by
  apply BitVec.eq_of_toNat_eq
  rw [fieldY_toNat, formatXYN_toNat]
  have := y.isLt
  have := n.isLt
  omega

theorem fieldN_formatXYN (g x y n : Nibble) : fieldN (g ++ x ++ y ++ n : Word) = n := by
  apply BitVec.eq_of_toNat_eq
  rw [fieldN_toNat, formatXYN_toNat]
  have := n.isLt
  omega

theorem fieldG_formatZ (g : Nibble) (ign : BitVec 8) (n : Nibble) : fieldG (g ++ ign ++ n : Word) = g := by
  apply BitVec.eq_of_toNat_eq
  rw [fieldG_toNat, formatZ_toNat]
  have := ign.isLt
  have := n.isLt
  omega

theorem fieldXY_formatZ (g : Nibble) (ign : BitVec 8) (n : Nibble) : fieldXY (g ++ ign ++ n : Word) = ign := by
  apply BitVec.eq_of_toNat_eq
  rw [fieldXY_toNat, formatZ_toNat]
  have := ign.isLt
  have := n.isLt
  omega

theorem fieldN_formatZ (g : Nibble) (ign : BitVec 8) (n : Nibble) : fieldN (g ++ ign ++ n : Word) = n := by
  apply BitVec.eq_of_toNat_eq
  rw [fieldN_toNat, formatZ_toNat]
  have := n.isLt
  omega

/-! ### A word is put together from its fields -/

theorem word_formatA (w : Word) : fieldG w ++ fieldNNN w = w := by
  apply BitVec.eq_of_toNat_eq
  rw [formatA_toNat, fieldG_toNat, fieldNNN_toNat]
  omega

theorem word_formatXNN (w : Word) : fieldG w ++ fieldX w ++ fieldNN w = w := by
  apply BitVec.eq_of_toNat_eq
  rw [formatXNN_toNat, fieldG_toNat, fieldX_toNat, fieldNN_toNat]
  omega

theorem word_formatXYN (w : Word) : fieldG w ++ fieldX w ++ fieldY w ++ fieldN w = w := by
  apply BitVec.eq_of_toNat_eq
  rw [formatXYN_toNat, fieldG_toNat, fieldX_toNat, fieldY_toNat, fieldN_toNat]
  omega

theorem word_formatZ (w : Word) : fieldG w ++ fieldXY w ++ fieldN w = w := by
  apply BitVec.eq_of_toNat_eq
  rw [formatZ_toNat, fieldG_toNat, fieldXY_toNat, fieldN_toNat]
  omega

/-! ### No-op words and group codes -/

/-- The no-op words as conditions on the word's group, low nibble and low byte (spec 30 R83). -/
theorem isNopWord_iff (w : Word) : isNopWord w = true ↔
    (w.toNat / 4096 = 0 ∧ w.toNat % 16 ≠ 0 ∧ w.toNat % 16 ≠ 14) ∨
    (w.toNat / 4096 = 8 ∧ ((8 ≤ w.toNat % 16 ∧ w.toNat % 16 ≤ 13) ∨ w.toNat % 16 = 15)) ∨
    (w.toNat / 4096 = 14 ∧ w.toNat % 16 ≠ 1 ∧ w.toNat % 16 ≠ 14) ∨
    (w.toNat / 4096 = 15 ∧ w.toNat % 256 ≠ 7 ∧ w.toNat % 256 ≠ 10 ∧ w.toNat % 256 ≠ 21 ∧ w.toNat % 256 ≠ 24 ∧
      w.toNat % 256 ≠ 30 ∧ w.toNat % 256 ≠ 41 ∧ w.toNat % 256 ≠ 51 ∧ w.toNat % 256 ≠ 85 ∧ w.toNat % 256 ≠ 101) := by
  simp only [isNopWord, Bool.or_eq_true, Bool.and_eq_true, beq_iff_eq, Bool.not_eq_true', Bool.or_eq_false_iff,
    beq_eq_false_iff_ne, decide_eq_true_eq]
  tauto

/-- A group is one of the sixteen. -/
theorem group_cases : ∀ g : Nibble, g = 0 ∨ g = 1 ∨ g = 2 ∨ g = 3 ∨ g = 4 ∨ g = 5 ∨ g = 6 ∨ g = 7 ∨
    g = 8 ∨ g = 9 ∨ g = 10 ∨ g = 11 ∨ g = 12 ∨ g = 13 ∨ g = 14 ∨ g = 15 := by decide

/-! ### The table's masks -/

theorem and_F000_toNat (w : Word) : (w &&& 0xF000).toNat = w.toNat / 4096 * 4096 := by
  have h : w &&& (0xF000 : Word) = w >>> 12 <<< 12 := by
    apply BitVec.eq_of_getLsbD_eq
    intro i hi
    interval_cases i <;> simp
  have := w.isLt
  rw [h, BitVec.toNat_shiftLeft, BitVec.toNat_ushiftRight, Nat.shiftRight_eq_div_pow, Nat.shiftLeft_eq]
  omega

theorem and_F00F_toNat (w : Word) : (w &&& 0xF00F).toNat = w.toNat / 4096 * 4096 + w.toNat % 16 := by
  have h : w &&& (0xF00F : Word) = (w &&& (0xF000 : Word)) ||| (w &&& (0x000F : Word)) := by
    rw [← BitVec.and_or_distrib_left]
    rfl
  have hlo : (w &&& 0x000F).toNat = w.toNat % 16 := Nat.and_two_pow_sub_one_eq_mod w.toNat 4
  rw [h, BitVec.toNat_or, and_F000_toNat, hlo]
  have := Nat.shiftLeft_add_eq_or_of_lt (i := 12) (b := w.toNat % 16) (by omega) (w.toNat / 4096)
  rw [Nat.shiftLeft_eq] at this
  exact this.symm

theorem and_F0FF_toNat (w : Word) : (w &&& 0xF0FF).toNat = w.toNat / 4096 * 4096 + w.toNat % 256 := by
  have h : w &&& (0xF0FF : Word) = (w &&& (0xF000 : Word)) ||| (w &&& (0x00FF : Word)) := by
    rw [← BitVec.and_or_distrib_left]
    rfl
  have hlo : (w &&& 0x00FF).toNat = w.toNat % 256 := Nat.and_two_pow_sub_one_eq_mod w.toNat 8
  rw [h, BitVec.toNat_or, and_F000_toNat, hlo]
  have := Nat.shiftLeft_add_eq_or_of_lt (i := 12) (b := w.toNat % 256) (by omega) (w.toNat / 4096)
  rw [Nat.shiftLeft_eq] at this
  exact this.symm

/-- A row whose mask is 0xF000: the group alone decides. -/
theorem matches_F000 (name : Mnemonic) (p w : Word) (hp : p &&& 0xF000 = p) :
    (OpcodeRow.mk name 0xF000 p).matchesWord w = decide (w.toNat / 4096 = p.toNat / 4096) := by
  have h1 := congrArg BitVec.toNat hp
  have h2 := and_F000_toNat w
  rw [and_F000_toNat] at h1
  refine (beq_eq_decide _ _).trans (decide_eq_decide.2 ⟨fun h => ?_, fun h => BitVec.eq_of_toNat_eq ?_⟩)
  · have := congrArg BitVec.toNat h
    simp only at this
    omega
  · simp only; omega

/-- A row whose mask is 0xF00F: the group and the low nibble decide. -/
theorem matches_F00F (name : Mnemonic) (p w : Word) (hp : p &&& 0xF00F = p) :
    (OpcodeRow.mk name 0xF00F p).matchesWord w =
      decide (w.toNat / 4096 = p.toNat / 4096 ∧ w.toNat % 16 = p.toNat % 16) := by
  have h1 := congrArg BitVec.toNat hp
  have h2 := and_F00F_toNat w
  rw [and_F00F_toNat] at h1
  refine (beq_eq_decide _ _).trans (decide_eq_decide.2 ⟨fun h => ?_, fun h => BitVec.eq_of_toNat_eq ?_⟩)
  · have := congrArg BitVec.toNat h
    simp only at this
    omega
  · simp only; omega

/-- A row whose mask is 0xF0FF: the group and the low byte decide. -/
theorem matches_F0FF (name : Mnemonic) (p w : Word) (hp : p &&& 0xF0FF = p) :
    (OpcodeRow.mk name 0xF0FF p).matchesWord w =
      decide (w.toNat / 4096 = p.toNat / 4096 ∧ w.toNat % 256 = p.toNat % 256) := by
  have h1 := congrArg BitVec.toNat hp
  have h2 := and_F0FF_toNat w
  rw [and_F0FF_toNat] at h1
  refine (beq_eq_decide _ _).trans (decide_eq_decide.2 ⟨fun h => ?_, fun h => BitVec.eq_of_toNat_eq ?_⟩)
  · have := congrArg BitVec.toNat h
    simp only at this
    omega
  · simp only; omega

/-- The table's choice, row by row, as conditions on the word's group, low nibble and low byte. -/
theorem tableMnemonic_of (w : Word) (g n nn : Nat) (hg : w.toNat / 4096 = g) (hn : w.toNat % 16 = n)
    (hnn : w.toNat % 256 = nn) :
    tableMnemonic w =
      if g = 0 ∧ n = 0 then .cls else if g = 0 ∧ n = 14 then .ret else if g = 1 then .jp else if g = 2 then .call
      else if g = 3 then .seImm else if g = 4 then .sneImm else if g = 5 then .seReg else if g = 6 then .ldImm
      else if g = 7 then .addImm else if g = 8 ∧ n = 0 then .ldReg else if g = 8 ∧ n = 1 then .orReg
      else if g = 8 ∧ n = 2 then .andReg else if g = 8 ∧ n = 3 then .xorReg else if g = 8 ∧ n = 4 then .addReg
      else if g = 8 ∧ n = 5 then .sub else if g = 8 ∧ n = 6 then .shr else if g = 8 ∧ n = 7 then .subn
      else if g = 8 ∧ n = 14 then .shl else if g = 9 then .sneReg else if g = 10 then .ldI else if g = 11 then .jpV0
      else if g = 12 then .rnd else if g = 13 then .drw else if g = 14 ∧ n = 14 then .skp
      else if g = 14 ∧ n = 1 then .sknp else if g = 15 ∧ nn = 7 then .ldVxDt else if g = 15 ∧ nn = 10 then .ldVxK
      else if g = 15 ∧ nn = 21 then .ldDtVx else if g = 15 ∧ nn = 24 then .ldStVx else if g = 15 ∧ nn = 30 then .addI
      else if g = 15 ∧ nn = 41 then .ldF else if g = 15 ∧ nn = 51 then .ldB else if g = 15 ∧ nn = 85 then .ldMemVx
      else if g = 15 ∧ nn = 101 then .ldVxMem else .nop := by
  subst hg hn hnn
  have step : ∀ (r : OpcodeRow) (l : List OpcodeRow) (q : Prop) [Decidable q] (m : Mnemonic),
      r.matchesWord w = decide q →
      (match l.find? (fun r => r.matchesWord w) with | some r => r.name | none => .nop) = m →
      (match (r :: l).find? (fun r => r.matchesWord w) with | some r => r.name | none => .nop) =
        if q then r.name else m := by
    intro r l q _ m hq hm
    rw [List.find?_cons, hq]
    by_cases h : q <;> simp [h, hm]
  unfold tableMnemonic opcodeTable
  repeat
    first
      | exact rfl
      | refine step _ _ _ _ (matches_F000 _ _ _ (by decide)) ?_
      | refine step _ _ _ _ (matches_F00F _ _ _ (by decide)) ?_
      | refine step _ _ _ _ (matches_F0FF _ _ _ (by decide)) ?_

end Sys2Proof
end

