-- ==== Sys2Proof/Laws/Cycle.lean ====
section
/-! SUPPORT. Everything a fetch and a step can do, said once. -/

namespace Sys2Proof.Machine

/-- If the fetch answers a word, it is the two bytes, high byte first (spec 40 R91). -/
theorem State.fetch_ok {s : State} {w : Word} (h : s.fetch = .ok w) :
    ∃ hi lo, s.memRead s.pc.toNat = .ok hi ∧ s.memRead (s.pc.toNat + 1) = .ok lo ∧ w = joinBytes hi lo := by
  unfold State.fetch at h
  cases h1 : s.memRead s.pc.toNat with
  | error e => rw [h1] at h; cases h
  | ok hi =>
    cases h2 : s.memRead (s.pc.toNat + 1) with
    | error e => rw [h1, h2] at h; cases h
    | ok lo => rw [h1, h2] at h; cases h; exact ⟨hi, lo, rfl, rfl, rfl⟩

theorem State.fetch_eq {s : State} {hi lo : Byte} (h1 : s.memRead s.pc.toNat = .ok hi)
    (h2 : s.memRead (s.pc.toNat + 1) = .ok lo) : s.fetch = .ok (joinBytes hi lo) := by
  unfold State.fetch
  rw [h1, h2]
  rfl

/-- The fetch raises only MemOutOfRange under Fault: for `pc`, else for `pc + 1` (spec 40 R91). -/
theorem State.fetch_error {s : State} {c : FaultCause} (h : s.fetch = .error c) :
    s.cfg.oob = .fault ∧
      ((0xFFF < s.pc.toNat ∧ c = .memOutOfRange s.pc.toNat) ∨ (s.pc.toNat = 0xFFF ∧ c = .memOutOfRange 0x1000)) := by
  unfold State.fetch at h
  cases h1 : s.memRead s.pc.toNat with
  | error e =>
    rw [h1] at h
    cases h
    obtain ⟨rfl, h2, h3⟩ := State.memRead_error h1
    exact ⟨h3, .inl ⟨h2, rfl⟩⟩
  | ok hi =>
    cases h2 : s.memRead (s.pc.toNat + 1) with
    | ok lo => rw [h1, h2] at h; cases h
    | error e =>
      rw [h1, h2] at h
      cases h
      obtain ⟨rfl, h3, h4⟩ := State.memRead_error h2
      refine ⟨h4, ?_⟩
      by_cases h5 : s.pc.toNat ≤ 0xFFF
      · have : s.pc.toNat = 0xFFF := by omega
        exact .inr ⟨this, by rw [this]⟩
      · have hr := State.memRead_ok h1
        obtain ⟨k, hk, -⟩ := hr
        rw [h4] at hk
        simp [resolve, h5] at hk

@[simp] theorem State.commit_of_none {s t : State} (h : t.fault = none) : s.commit t = t.tick.lapseWord := by
  simp [State.commit, h]

@[simp] theorem State.commit_of_some {s t : State} {c : FaultCause} (h : t.fault = some c) : s.commit t = s.raise c := by
  simp [State.commit, h]

/-- Everything a step can do (spec 40 R90): stand still, fail to fetch, refuse an alias, or run the decoded
instruction. -/
theorem step_cases (s : State) :
    (∃ c, s.fault = some c ∧ step s = .next s) ∨
    (s.fault = none ∧ ∃ c, s.fetch = .error c ∧ step s = .next (s.raise c)) ∨
    (s.fault = none ∧ ∃ w, s.fetch = .ok w ∧ decodeWord s.cfg.strictDecode w = none ∧
      step s = .refused (.strictAlias w)) ∨
    (s.fault = none ∧ ∃ w i, s.fetch = .ok w ∧ decodeWord s.cfg.strictDecode w = some i ∧
      step s = commitResult s (exec i (s.setWord w).advance)) := by
  unfold step cycle
  cases hf : s.fault with
  | some c => exact .inl ⟨c, rfl, rfl⟩
  | none =>
    refine .inr ?_
    cases hw : s.fetch with
    | error c => exact .inl ⟨rfl, c, rfl, rfl⟩
    | ok w =>
      refine .inr ?_
      cases hd : decodeWord s.cfg.strictDecode w with
      | none => exact .inl ⟨rfl, w, rfl, hd, by simp [hd]⟩
      | some i => exact .inr ⟨rfl, w, i, rfl, hd, by simp [hd]⟩

/-- The decoder's instruction is Decode's, whatever STRICT_DECODE is. -/
theorem decodeWord_some {strict : Bool} {w : Word} {i : Instr} (h : decodeWord strict w = some i) : i = decode w := by
  unfold decodeWord at h
  split at h
  · cases h
  · exact (Option.some.inj h).symm

@[simp] theorem decodeWord_false (w : Word) : decodeWord false w = some (decode w) := rfl

/-- Everything a step that answers a next state can have done. -/
theorem step_next_cases {s t : State} (h : step s = .next t) :
    (∃ c, s.fault = some c ∧ t = s) ∨
    (s.fault = none ∧ ∃ c, s.fetch = .error c ∧ t = s.raise c) ∨
    (s.fault = none ∧ ∃ w u, s.fetch = .ok w ∧ decodeWord s.cfg.strictDecode w = some (decode w) ∧
      exec (decode w) (s.setWord w).advance = .next u ∧ t = s.commit u) := by
  rcases step_cases s with ⟨c, hc, e⟩ | ⟨hn, c, hc, e⟩ | ⟨hn, w, hw, hd, e⟩ | ⟨hn, w, i, hw, hd, e⟩ <;> rw [e] at h
  · cases h; exact .inl ⟨c, hc, rfl⟩
  · cases h; exact .inr (.inl ⟨hn, c, hc, rfl⟩)
  · cases h
  · refine .inr (.inr ⟨hn, w, ?_⟩)
    have hi := decodeWord_some hd
    subst hi
    cases hx : exec (decode w) (s.setWord w).advance with
    | next u => rw [hx] at h; cases h; exact ⟨u, hw, hd, rfl, rfl⟩
    | fault f => rw [hx] at h; cases h
    | refused q => rw [hx] at h; cases h

/-- A completed step ran the decoded instruction's handler to a state without a fault, ticked, and let the
scratch word go. -/
theorem Completes.ran {s t : State} {w : Word} (h : Completes s t w) :
    ∃ u, exec (decode w) (s.setWord w).advance = .next u ∧ u.fault = none ∧ t = u.tick.lapseWord := by
  obtain ⟨h1, h2, h3, h4⟩ := h
  rcases step_next_cases h3 with ⟨c, hc, _⟩ | ⟨_, c, hc, rfl⟩ | ⟨_, w', u, hw, hd, he, rfl⟩
  · rw [h1] at hc; cases hc
  · rw [h2] at hc; cases hc
  · rw [h2] at hw
    cases hw
    cases hf : u.fault with
    | none => exact ⟨u, he, hf, State.commit_of_none hf⟩
    | some c => rw [State.commit_of_some hf] at h4; cases h4

/-- The strict decoder's aliases are the alias words (spec 30 R81, R82; log entry 7). -/
theorem isAlias_decode_iff (w : Word) : isAlias (decode w) = true ↔ AliasWord w := by
  unfold AliasWord isAlias
  cases decode w <;> simp

end Sys2Proof.Machine
end

