-- ==== Sys2Proof/Laws/Frame.lean ====
section
/-! SUPPORT. The frame buffer: reading after toggling, its canonical form, and everything PixelIndex can answer. -/

namespace Sys2Proof.Machine

/-- A cell is on when it is listed. -/
theorem Frame.isOn_iff (f : Frame) (p : Nat) : f.isOn p = true ↔ p ∈ f := by
  induction f with
  | nil => simp [Frame.isOn]
  | cons q f ih => simp [Frame.isOn, ih]

@[simp] theorem Frame.isOn_nil (p : Nat) : Frame.isOn [] p = false := rfl

/-- A toggle leaves every other cell alone, in any list. -/
theorem Frame.isOn_toggle_ne (f : Frame) {p q : Nat} (h : q ≠ p) : (f.toggle p).isOn q = f.isOn q := by
  induction f with
  | nil => simp [Frame.toggle, Frame.isOn, h]
  | cons k f ih =>
    unfold Frame.toggle
    split
    · simp [Frame.isOn, h]
    · split
      · next hk => subst hk; simp [Frame.isOn, h]
      · simp [Frame.isOn, ih]

/-- A toggle flips its cell in a rising list. -/
theorem Frame.isOn_toggle_self (f : Frame) (h : f.Pairwise (· < ·)) (p : Nat) :
    Frame.isOn (f.toggle p) p = !Frame.isOn f p := by
  induction f with
  | nil => simp [Frame.toggle, Frame.isOn]
  | cons k f ih =>
    have hp := List.pairwise_cons.1 h
    have hnot : p ≤ k → Frame.isOn f p = false := by
      intro hle
      rw [Bool.eq_false_iff]
      intro hon
      have := hp.1 p ((Frame.isOn_iff f p).1 hon)
      omega
    unfold Frame.toggle
    split
    · next hlt =>
      have hne : (p == k) = false := by simp; omega
      simp [Frame.isOn, hnot (by omega), hne]
    · split
      · next hk => subst hk; simp [Frame.isOn, hnot (Nat.le_refl _)]
      · next hk =>
        have hne : (p == k) = false := by simp [hk]
        simp [Frame.isOn, ih hp.2, hne]

theorem Frame.isOn_toggle (f : Frame) (h : f.wf) (p q : Nat) :
    (f.toggle p).isOn q = if q = p then !f.isOn p else f.isOn q := by
  by_cases hq : q = p
  · subst hq; simp [Frame.isOn_toggle_self f h.1]
  · simp [Frame.isOn_toggle_ne f hq, hq]

theorem Frame.mem_toggle (f : Frame) {p q : Nat} (h : q ∈ f.toggle p) : q = p ∨ q ∈ f := by
  by_cases hq : q = p
  · exact .inl hq
  · refine .inr ((Frame.isOn_iff f q).1 ?_)
    rw [← Frame.isOn_toggle_ne f hq]
    exact (Frame.isOn_iff _ q).2 h

/-- Toggling one of the 2048 cells keeps the canonical form. -/
theorem Frame.wf_toggle (f : Frame) (h : f.wf) {p : Nat} (hp : p < 2048) : (f.toggle p).wf := by
  refine ⟨?_, fun q hq => (Frame.mem_toggle f hq).elim (fun e => e ▸ hp) (h.2 q)⟩
  obtain ⟨h, -⟩ := h
  induction f with
  | nil => simp [Frame.toggle]
  | cons k f ih =>
    have hk := List.pairwise_cons.1 h
    unfold Frame.toggle
    split
    · next hlt =>
      refine List.pairwise_cons.2 ⟨fun q hq => ?_, h⟩
      rcases List.mem_cons.1 hq with rfl | hq
      · exact hlt
      · exact Nat.lt_trans hlt (hk.1 q hq)
    · split
      · exact hk.2
      · refine List.pairwise_cons.2 ⟨fun q hq => ?_, ih hk.2⟩
        rcases Frame.mem_toggle f hq with rfl | hq
        · omega
        · exact hk.1 q hq

/-- PixelIndex answers a cell of the frame buffer, on the coordinates a sprite reaches (spec 44 R157). -/
theorem pixelIndex_lt {cfg : Config} {px py p : Nat} (h : pixelIndex cfg px py = .ok (some p)) : p < 2048 := by
  unfold pixelIndex at h
  split at h
  · split at h
    · cases h; omega
    · split at h <;> cases h <;> omega
  · split at h
    · cases h
    · cases h; omega
  · cases h; omega

/-- PixelIndex raises only FrameOutOfRange, past the array's end, under Linear and Fault (spec 60 R177). -/
theorem pixelIndex_error {cfg : Config} {px py : Nat} {c : FaultCause} (h : pixelIndex cfg px py = .error c) :
    c = .frameOutOfRange (py * 64 + px) ∧ 2047 < py * 64 + px ∧ cfg.drawEdge = .linear ∧ cfg.oob = .fault := by
  unfold pixelIndex at h
  split at h
  · next he =>
    split at h
    · cases h
    · next hp =>
      split at h
      · next ho => cases h; exact ⟨rfl, by omega, he, ho⟩
      · cases h
      · cases h
  · split at h <;> cases h
  · cases h

/-- Inside the screen every DRAW_EDGE gives the linear index. -/
theorem pixelIndex_inside (cfg : Config) {px py : Nat} (hx : px < 64) (hy : py < 32) :
    pixelIndex cfg px py = .ok (some (py * 64 + px)) := by
  unfold pixelIndex
  split
  · rw [if_pos (by omega)]
  · rw [if_neg (by omega)]
  · rw [Nat.mod_eq_of_lt hx, Nat.mod_eq_of_lt hy]

end Sys2Proof.Machine
end

