-- ==== Sys2Proof/Laws/Display.lean ====
section
/-! SUPPORT. What drawing a sprite does: each cell is flipped once for every pixel that lands on it, and the collision
says whether some flip turned a cell off. -/

namespace Sys2Proof.Machine

/-- The canvas after `h p` pixels have landed on each cell `p` of the frame buffer `f`. -/
structure Drawn (f : Frame) (h : Nat → Nat) (d : Canvas) : Prop where
  wf : d.fb.wf
  on : ∀ p, d.fb.isOn p = (Frame.isOn f p ^^ decide (h p % 2 = 1))
  hit : d.hit = true ↔ ∃ p, (Frame.isOn f p = true ∧ 1 ≤ h p) ∨ 2 ≤ h p

/-- Nothing has landed yet. -/
theorem Drawn.start {f : Frame} (hf : f.wf) : Drawn f (fun _ => 0) { fb := f, hit := false } :=
  ⟨hf, by simp, by simp⟩

/-- One more pixel lands on `p`. -/
theorem Drawn.plot {f : Frame} {h : Nat → Nat} {d : Canvas} (hd : Drawn f h d) {p : Nat} (hp : p < 2048) :
    Drawn f (fun q => h q + if q = p then 1 else 0) (d.plot p) := by
  refine ⟨Frame.wf_toggle _ hd.wf hp, fun q => ?_, ?_⟩
  · change (d.fb.toggle p).isOn q = _
    rw [Frame.isOn_toggle _ hd.wf]
    by_cases hq : q = p
    · subst hq
      rw [if_pos rfl, hd.on q, if_pos rfl]
      rcases Nat.mod_two_eq_zero_or_one (h q) with h2 | h2
      · have : (h q + 1) % 2 = 1 := by omega
        simp [h2, this]
      · have : ¬(h q + 1) % 2 = 1 := by omega
        simp [h2, this]
    · simp [hq, hd.on q]
  · change (d.hit || d.fb.isOn p) = true ↔ _
    rw [Bool.or_eq_true, hd.hit, hd.on p]
    constructor
    · rintro (⟨q, hq⟩ | hp1)
      · refine ⟨q, ?_⟩
        rcases hq with ⟨h1, h2⟩ | h2
        · exact .inl ⟨h1, by omega⟩
        · exact .inr (by omega)
      · refine ⟨p, ?_⟩
        rw [if_pos rfl]
        cases hf : Frame.isOn f p with
        | true => exact .inl ⟨rfl, by omega⟩
        | false => rw [hf] at hp1; simp at hp1; exact .inr (by omega)
    · rintro ⟨q, hq⟩
      by_cases hqp : q = p
      · subst hqp
        rw [if_pos rfl] at hq
        cases hf : Frame.isOn f q with
        | true =>
          by_cases h0 : h q = 0
          · exact .inr (by simp [h0])
          · exact .inl ⟨q, .inl ⟨hf, by omega⟩⟩
        | false =>
          rw [hf] at hq
          by_cases h1 : h q = 1
          · exact .inr (by simp [h1])
          · refine .inl ⟨q, .inr ?_⟩
            rcases hq with ⟨h3, -⟩ | h3
            · cases h3
            · omega
      · simp only [hqp, if_false, Nat.add_zero] at hq
        exact .inl ⟨q, hq⟩

/-- Counting over `0 .. n` is counting over `0 .. n - 1` and at `n`. -/
theorem countP_range_succ (q : Nat → Bool) (n : Nat) :
    (List.range (n + 1)).countP q = (List.range n).countP q + if q n = true then 1 else 0 := by
  rw [List.range_succ, List.countP_append]
  simp [List.countP_cons]

/-- Whether a set bit of row byte `b` in column `c` lands on `p`. -/
def columnLands (cfg : Config) (b : Byte) (x0 py p c : Nat) : Bool :=
  b.getLsbD (7 - c) && decide (pixelIndex cfg (x0 + c) py = .ok (some p))

/-- One column that went well. -/
theorem drawColumn_drawn {cfg : Config} {b : Byte} {x0 py c : Nat} {f : Frame} {h : Nat → Nat} {d e : Canvas}
    (hd : Drawn f h d) (hc : drawColumn cfg b x0 py d c = .ok e) :
    Drawn f (fun p => h p + if columnLands cfg b x0 py p c = true then 1 else 0) e := by
  unfold drawColumn at hc
  unfold columnLands
  cases hb : b.getLsbD (7 - c) with
  | false => rw [hb] at hc; cases hc; simpa using hd
  | true =>
    rw [hb, if_pos rfl] at hc
    cases hpi : pixelIndex cfg (x0 + c) py with
    | error e' => rw [hpi] at hc; cases hc
    | ok o =>
      rw [hpi] at hc
      cases o with
      | none => cases hc; simpa using hd
      | some q =>
        cases hc
        have := hd.plot (pixelIndex_lt hpi)
        simpa [eq_comm] using this

/-- A row's columns that went well. -/
theorem drawColumns_drawn {cfg : Config} {b : Byte} {x0 py : Nat} {f : Frame} {h : Nat → Nat} {d : Canvas} (m : Nat)
    {e : Canvas} (hd : Drawn f h d) (hc : (List.range m).foldlM (drawColumn cfg b x0 py) d = .ok e) :
    Drawn f (fun p => h p + (List.range m).countP (columnLands cfg b x0 py p)) e := by
  induction m generalizing e with
  | zero => cases hc; simpa using hd
  | succ m ih =>
    rw [foldlM_range_succ] at hc
    cases hu : (List.range m).foldlM (drawColumn cfg b x0 py) d with
    | error e' => rw [hu] at hc; cases hc
    | ok u =>
      rw [hu] at hc
      have := drawColumn_drawn (ih hu) hc
      simpa only [countP_range_succ, Nat.add_assoc] using this

/-- A row's columns go well when every set bit has a place or is skipped. -/
theorem drawColumns_total {cfg : Config} {b : Byte} {x0 py : Nat} (m : Nat) (d : Canvas)
    (h : ∀ c, c < m → b.getLsbD (7 - c) = true → ∃ o, pixelIndex cfg (x0 + c) py = .ok o) :
    ∃ e, (List.range m).foldlM (drawColumn cfg b x0 py) d = .ok e := by
  induction m with
  | zero => exact ⟨d, rfl⟩
  | succ m ih =>
    obtain ⟨u, hu⟩ := ih fun c hc => h c (by omega)
    have : ∃ e, drawColumn cfg b x0 py u m = .ok e := by
      unfold drawColumn
      cases hb : b.getLsbD (7 - m) with
      | false => exact ⟨u, by simp⟩
      | true =>
        obtain ⟨o, ho⟩ := h m (by omega) hb
        rw [if_pos rfl, ho]
        cases o with
        | none => exact ⟨u, rfl⟩
        | some p => exact ⟨u.plot p, rfl⟩
    obtain ⟨e, he⟩ := this
    exact ⟨e, by rw [foldlM_range_succ, hu]; exact he⟩

/-- One row: its byte, then its columns. -/
theorem drawRow_eq {s : State} {x0 y0 r : Nat} {d : Canvas} {b : Byte} (hb : s.memRead (s.indexed r) = .ok b) :
    drawRow s x0 y0 d r = (List.range 8).foldlM (drawColumn s.cfg b x0 (y0 + r)) d := by
  unfold drawRow
  rw [hb]
  rfl

theorem spriteLands_eq {s : State} {x y : Nibble} {r : Nat} {b : Byte} (hb : s.memRead (s.indexed r) = .ok b) (p c : Nat) :
    s.spriteLands x y p r c = columnLands s.cfg b (s.spriteX x) (s.spriteY y + r) p c := by
  unfold State.spriteLands columnLands
  rw [hb]

theorem spriteHits_succ (s : State) (x y : Nibble) (n p : Nat) :
    s.spriteHits x y (n + 1) p =
      s.spriteHits x y n p + (List.range 8).countP (fun c => s.spriteLands x y p n c) := by
  unfold State.spriteHits
  rw [List.range_succ (n := n), List.map_append, List.sum_append]
  simp

/-- A sprite that went well: each cell has been flipped once for every pixel that landed on it. -/
theorem drawSprite_drawn {s : State} (hs : s.fb.wf) (x y : Nibble) (n : Nat) {e : Canvas}
    (h : drawSprite s (s.spriteX x) (s.spriteY y) n = .ok e) : Drawn s.fb (s.spriteHits x y n) e := by
  unfold drawSprite at h
  induction n generalizing e with
  | zero => cases h; exact Drawn.start hs
  | succ n ih =>
    rw [foldlM_range_succ] at h
    cases hu : (List.range n).foldlM (drawRow s (s.spriteX x) (s.spriteY y)) { fb := s.fb, hit := false } with
    | error e' => rw [hu] at h; cases h
    | ok u =>
      rw [hu] at h
      replace h : drawRow s (s.spriteX x) (s.spriteY y) u n = .ok e := h
      cases hb : s.memRead (s.indexed n) with
      | error e' => unfold drawRow at h; rw [hb] at h; cases h
      | ok b =>
        rw [drawRow_eq hb] at h
        have := drawColumns_drawn 8 (ih hu) h
        have he : (fun p => s.spriteHits x y n p + (List.range 8).countP (columnLands s.cfg b (s.spriteX x) (s.spriteY y + n) p))
            = s.spriteHits x y (n + 1) := by
          funext p
          rw [spriteHits_succ]
          congr 2
          funext c
          exact (spriteLands_eq hb p c).symm
        rwa [he] at this

/-- A sprite that fits is drawn. -/
theorem drawSprite_total {s : State} {x y : Nibble} (n : Nat) (h : s.SpriteFits x y n) :
    ∃ e, drawSprite s (s.spriteX x) (s.spriteY y) n = .ok e := by
  unfold drawSprite
  induction n with
  | zero => exact ⟨_, rfl⟩
  | succ n ih =>
    obtain ⟨u, hu⟩ := ih fun r hr => h r (by omega)
    obtain ⟨b, hb, hcols⟩ := h n (by omega)
    obtain ⟨e, he⟩ := drawColumns_total (x0 := s.spriteX x) 8 u hcols
    exact ⟨e, by rw [foldlM_range_succ, hu]; exact (drawRow_eq hb).trans he⟩

/-- A sprite that was drawn keeps the canonical form of the frame buffer. -/
theorem drawSprite_wf {s : State} (hs : s.fb.wf) {x0 y0 n : Nat} {e : Canvas} (h : drawSprite s x0 y0 n = .ok e) :
    e.fb.wf := by
  refine foldlM_keeps (fun d : Canvas => d.fb.wf) _ _ (fun t r u ht hu => ?_) _ _ hs h
  unfold drawRow at hu
  cases hb : s.memRead (s.indexed r) with
  | error e' => rw [hb] at hu; cases hu
  | ok b =>
    rw [hb] at hu
    refine foldlM_keeps (fun d : Canvas => d.fb.wf) _ _ (fun t' c u' ht' hu' => ?_) _ _ ht hu
    unfold drawColumn at hu'
    split at hu'
    · split at hu'
      · next p hp => cases hu'; exact Frame.wf_toggle _ ht' (pixelIndex_lt hp)
      · cases hu'; exact ht'
      · cases hu'
    · cases hu'; exact ht'

/-- What a sprite can raise: a row's byte out of range, or a set pixel past the frame buffer's end (spec 60 R177). -/
theorem drawSprite_error {s : State} {x0 y0 n : Nat} {c : FaultCause} (h : drawSprite s x0 y0 n = .error c) :
    (∃ r, r < n ∧ s.memRead (s.indexed r) = .error c) ∨
    (∃ r k, r < n ∧ k < 8 ∧ pixelIndex s.cfg (x0 + k) (y0 + r) = .error c) := by
  obtain ⟨t, r, hr, he⟩ := foldlM_error _ _ _ _ h
  rw [List.mem_range] at hr
  unfold drawRow at he
  cases hb : s.memRead (s.indexed r) with
  | error e' => rw [hb] at he; cases he; exact .inl ⟨r, hr, hb⟩
  | ok b =>
    rw [hb] at he
    replace he : (List.range 8).foldlM (drawColumn s.cfg b x0 (y0 + r)) t = .error c := he
    obtain ⟨t', k, hk, he'⟩ := foldlM_error _ _ _ _ he
    rw [List.mem_range] at hk
    unfold drawColumn at he'
    split at he'
    · split at he'
      · cases he'
      · cases he'
      · next e' hp => cases he'; exact .inr ⟨r, k, hr, hk, hp⟩
    · cases he'

end Sys2Proof.Machine
end

