-- ==== Sys2Proof/Laws/Exec.lean ====
section
/-! SUPPORT. Everything an instruction can do when it answers a next state, said once: its effect, or, where it can
raise, the raise. -/

namespace Sys2Proof.Machine

/-- What a handler that can raise answers: the state `k` makes of the value, or the state before it and the fault. -/
theorem finish_bind {α : Type} {s t : State} {r : Except FaultCause α} {k : α → State}
    (h : finish s (r >>= fun a => pure (k a)) = .next t) :
    (∃ a, r = .ok a ∧ t = k a) ∨ ∃ c, r = .error c ∧ t = s.raise c := by
  cases r with
  | ok a => cases h; exact .inl ⟨a, rfl, rfl⟩
  | error c => cases h; exact .inr ⟨c, rfl, rfl⟩

/-- Everything Return can do. -/
theorem execRet_next {s t : State} (h : execRet s = .next t) :
    (∃ k, ∃ hk : k < 16, s.popSlot = .ok k ∧ t = { s with sp := BitVec.ofNat 8 k, pc := s.stack[k] }) ∨
    ∃ c, s.popSlot = .error c ∧ t = s.raise c := by
  unfold execRet at h
  split at h
  · next c hc => cases h; exact .inr ⟨c, hc, rfl⟩
  · next k hk =>
    split at h
    · next h16 => cases h; exact .inl ⟨k, h16, hk, rfl⟩
    · cases h

/-- Everything the BCD store can do: three bytes stored, or the first raise. -/
theorem execLdB_next {x : Nibble} {s t : State} (h : execLdB x s = .next t) :
    (∃ k0 k1 k2, resolve s.cfg.oob (s.indexed 0) = .ok k0 ∧ resolve s.cfg.oob (s.indexed 1) = .ok k1 ∧
      resolve s.cfg.oob (s.indexed 2) = .ok k2 ∧
      t = ((s.setByte k0 (hundreds (s.getReg x))).setByte k1 (tens (s.getReg x))).setByte k2 (ones (s.getReg x))) ∨
    ∃ a, 0xFFF < a ∧ s.cfg.oob = .fault ∧ t = s.raise (.memOutOfRange a) := by
  unfold execLdB at h
  cases h0 : s.memWrite (s.indexed 0) (hundreds (s.getReg x)) with
  | error c =>
    rw [h0] at h
    cases h
    obtain ⟨rfl, ha, hp⟩ := State.memWrite_error h0
    exact .inr ⟨_, ha, hp, rfl⟩
  | ok t0 =>
    obtain ⟨k0, e0, rfl⟩ := State.memWrite_ok h0
    rw [h0] at h
    cases h1 : (s.setByte k0 (hundreds (s.getReg x))).memWrite (s.indexed 1) (tens (s.getReg x)) with
    | error c =>
      replace h : finish s ((s.setByte k0 (hundreds (s.getReg x))).memWrite (s.indexed 1) (tens (s.getReg x)) >>=
        fun t1 => t1.memWrite (s.indexed 2) (ones (s.getReg x))) = .next t := h
      rw [h1] at h
      cases h
      obtain ⟨rfl, ha, hp⟩ := State.memWrite_error h1
      exact .inr ⟨_, ha, hp, rfl⟩
    | ok t1 =>
      obtain ⟨k1, e1, rfl⟩ := State.memWrite_ok h1
      replace h : finish s ((s.setByte k0 (hundreds (s.getReg x))).memWrite (s.indexed 1) (tens (s.getReg x)) >>=
        fun t1 => t1.memWrite (s.indexed 2) (ones (s.getReg x))) = .next t := h
      rw [h1] at h
      rcases finish_next h with h2 | ⟨c, h2, rfl⟩
      · obtain ⟨k2, e2, rfl⟩ := State.memWrite_ok h2
        exact .inl ⟨k0, k1, k2, e0, e1, e2, rfl⟩
      · obtain ⟨rfl, ha, hp⟩ := State.memWrite_error h2
        exact .inr ⟨_, ha, hp, rfl⟩

/-- What each instruction makes of a state: its effect, or, where it can raise, the raise. -/
def Ran (s t : State) : Instr → Prop
  | .cls _ => t = s.setFb []
  | .ret _ =>
    (∃ k, ∃ hk : k < 16, s.popSlot = .ok k ∧ t = { s with sp := BitVec.ofNat 8 k, pc := s.stack[k] }) ∨
    ∃ c, s.popSlot = .error c ∧ t = s.raise c
  | .jp nnn => t = s.setPc (extendAddr nnn)
  | .call nnn => (∃ u, s.push s.pc = .ok u ∧ t = u.setPc (extendAddr nnn)) ∨ ∃ c, s.push s.pc = .error c ∧ t = s.raise c
  | .seImm x nn => t = s.skipIf (s.getReg x == nn)
  | .sneImm x nn => t = s.skipIf (s.getReg x != nn)
  | .seReg x y _ => t = s.skipIf (s.getReg x == s.getReg y)
  | .ldImm x nn => t = s.setReg x nn
  | .addImm x nn => t = s.setReg x (s.getReg x + nn)
  | .ldReg x y => t = s.setReg x (s.getReg y)
  | .orReg x y => t = s.setReg x (s.getReg x ||| s.getReg y)
  | .andReg x y => t = s.setReg x (s.getReg x &&& s.getReg y)
  | .xorReg x y => t = s.setReg x (s.getReg x ^^^ s.getReg y)
  | .addReg x y => t = s.setRegFlag x (s.getReg x + s.getReg y) (carryFlag (s.getReg x) (s.getReg y))
  | .sub x y => t = s.setRegFlag x (s.getReg x - s.getReg y) (greaterFlag (s.getReg x) (s.getReg y))
  | .shr x y => t = s.setRegFlag x (s.shiftOperand x y >>> 1) (lowBitFlag (s.shiftOperand x y))
  | .subn x y => t = s.setRegFlag x (s.getReg y - s.getReg x) (greaterFlag (s.getReg y) (s.getReg x))
  | .shl x y => t = s.setRegFlag x (s.shiftOperand x y <<< 1) (highBitFlag (s.shiftOperand x y))
  | .sneReg x y _ => t = s.skipIf (s.getReg x != s.getReg y)
  | .ldI nnn => t = s.setIndex (extendAddr nnn)
  | .jpV0 nnn => t = s.setPc (s.offsetTarget nnn)
  | .rnd x nn => t = s.countDraw.setReg x (Config.randomByte s.draws &&& nn)
  | .drw x y n =>
    (∃ d, drawSprite s (s.spriteX x) (s.spriteY y) n.toNat = .ok d ∧
      t = (s.setFb d.fb).setReg regVF (flagByte d.hit)) ∨
    ∃ c, drawSprite s (s.spriteX x) (s.spriteY y) n.toNat = .error c ∧ t = s.raise c
  | .skp x _ =>
    (∃ k, keyIndex s.cfg.oob (s.getReg x) = .ok k ∧ t = s.skipIf (s.keyDown k)) ∨
    ∃ c, keyIndex s.cfg.oob (s.getReg x) = .error c ∧ t = s.raise c
  | .sknp x _ =>
    (∃ k, keyIndex s.cfg.oob (s.getReg x) = .ok k ∧ t = s.skipIf (!s.keyDown k)) ∨
    ∃ c, keyIndex s.cfg.oob (s.getReg x) = .error c ∧ t = s.raise c
  | .ldVxDt x => t = s.setReg x s.dt
  | .ldVxK x =>
    (∃ k, s.firstKey = some k ∧ t = s.setReg x (BitVec.ofNat 8 k)) ∨ s.firstKey = none ∧ t = s.setPc (s.pc - 2)
  | .ldDtVx x => t = s.setDt (s.getReg x)
  | .ldStVx x => t = s.setSt (s.getReg x)
  | .addI x => t = s.setIndex (s.index + (s.getReg x).setWidth 16)
  | .ldF x => t = s.setIndex (glyphAddr (s.getReg x))
  | .ldB x =>
    (∃ k0 k1 k2, resolve s.cfg.oob (s.indexed 0) = .ok k0 ∧ resolve s.cfg.oob (s.indexed 1) = .ok k1 ∧
      resolve s.cfg.oob (s.indexed 2) = .ok k2 ∧
      t = ((s.setByte k0 (hundreds (s.getReg x))).setByte k1 (tens (s.getReg x))).setByte k2 (ones (s.getReg x))) ∨
    ∃ a, 0xFFF < a ∧ s.cfg.oob = .fault ∧ t = s.raise (.memOutOfRange a)
  | .ldMemVx x =>
    (List.range (x.toNat + 1)).foldlM State.storeReg s = .ok t ∨
    ∃ c, (List.range (x.toNat + 1)).foldlM State.storeReg s = .error c ∧ t = s.raise c
  | .ldVxMem x =>
    (List.range (x.toNat + 1)).foldlM State.loadReg s = .ok t ∨
    ∃ c, (List.range (x.toNat + 1)).foldlM State.loadReg s = .error c ∧ t = s.raise c
  | .nop _ => t = s

/-- Everything an instruction can do when it answers a next state. -/
theorem exec_next {i : Instr} {s t : State} (h : exec i s = .next t) : Ran s t i := by
  cases i with
  | ret _ => exact execRet_next h
  | call nnn => exact finish_bind h
  | drw x y n => exact finish_bind h
  | skp x _ => exact finish_bind h
  | sknp x _ => exact finish_bind h
  | ldB x => exact execLdB_next h
  | ldMemVx x => exact finish_next h
  | ldVxMem x => exact finish_next h
  | ldVxK x =>
    replace h : execLdVxK x s = .next t := h
    unfold execLdVxK at h
    split at h
    · next k hk => cases h; exact .inl ⟨k, hk, rfl⟩
    · next hk => cases h; exact .inr ⟨hk, rfl⟩
  | _ => exact (Host.Outcome.next.inj h).symm

end Sys2Proof.Machine
end

