-- ==== Sys2Proof/Laws/PerInstr.lean ====
section
/-! SUPPORT. A law of every instruction, one lemma per constructor: the opcode table, read by its masks and patterns
alone, gives the word of a well-formed instruction that instruction's row (spec 30 R87). -/

namespace Sys2Proof.Laws.TableRow

/-- The table's row for the instruction's word is the instruction's own. -/
def Statement (i : Instr) : Prop := i.wellFormed = true → tableMnemonic (encode i) = mnemonicOf i

theorem cls (ign : BitVec 8) : Statement (.cls ign) := by
  intro _
  have h := formatZ_toNat 0x0#4 ign 0x0#4
  have := ign.isLt
  rw [tableMnemonic_of _ 0 0 _ (by simp only [encode, h, BitVec.toNat_ofNat]; omega) (by simp only [encode, h, BitVec.toNat_ofNat]; omega) rfl]
  simp [mnemonicOf]

theorem ret (ign : BitVec 8) : Statement (.ret ign) := by
  intro _
  have h := formatZ_toNat 0x0#4 ign 0xE#4
  have := ign.isLt
  rw [tableMnemonic_of _ 0 14 _ (by simp only [encode, h, BitVec.toNat_ofNat]; omega) (by simp only [encode, h, BitVec.toNat_ofNat]; omega) rfl]
  simp [mnemonicOf]

theorem jp (nnn : Addr) : Statement (.jp nnn) := by
  intro _
  have h := formatA_toNat 0x1#4 nnn
  have := nnn.isLt
  rw [tableMnemonic_of _ 1 _ _ (by simp only [encode, h, BitVec.toNat_ofNat]; omega) rfl rfl]
  simp [mnemonicOf]

theorem call (nnn : Addr) : Statement (.call nnn) := by
  intro _
  have h := formatA_toNat 0x2#4 nnn
  have := nnn.isLt
  rw [tableMnemonic_of _ 2 _ _ (by simp only [encode, h, BitVec.toNat_ofNat]; omega) rfl rfl]
  simp [mnemonicOf]

theorem seImm (x : Nibble) (nn : Byte) : Statement (.seImm x nn) := by
  intro _
  have h := formatXNN_toNat 0x3#4 x nn
  have := x.isLt
  have := nn.isLt
  rw [tableMnemonic_of _ 3 _ _ (by simp only [encode, h, BitVec.toNat_ofNat]; omega) rfl rfl]
  simp [mnemonicOf]

theorem sneImm (x : Nibble) (nn : Byte) : Statement (.sneImm x nn) := by
  intro _
  have h := formatXNN_toNat 0x4#4 x nn
  have := x.isLt
  have := nn.isLt
  rw [tableMnemonic_of _ 4 _ _ (by simp only [encode, h, BitVec.toNat_ofNat]; omega) rfl rfl]
  simp [mnemonicOf]

theorem seReg (x y ign : Nibble) : Statement (.seReg x y ign) := by
  intro _
  have h := formatXYN_toNat 0x5#4 x y ign
  have := x.isLt
  have := y.isLt
  have := ign.isLt
  rw [tableMnemonic_of _ 5 _ _ (by simp only [encode, h, BitVec.toNat_ofNat]; omega) rfl rfl]
  simp [mnemonicOf]

theorem ldImm (x : Nibble) (nn : Byte) : Statement (.ldImm x nn) := by
  intro _
  have h := formatXNN_toNat 0x6#4 x nn
  have := x.isLt
  have := nn.isLt
  rw [tableMnemonic_of _ 6 _ _ (by simp only [encode, h, BitVec.toNat_ofNat]; omega) rfl rfl]
  simp [mnemonicOf]

theorem addImm (x : Nibble) (nn : Byte) : Statement (.addImm x nn) := by
  intro _
  have h := formatXNN_toNat 0x7#4 x nn
  have := x.isLt
  have := nn.isLt
  rw [tableMnemonic_of _ 7 _ _ (by simp only [encode, h, BitVec.toNat_ofNat]; omega) rfl rfl]
  simp [mnemonicOf]

theorem ldReg (x y : Nibble) : Statement (.ldReg x y) := by
  intro _
  have h := formatXYN_toNat 0x8#4 x y 0x0#4
  have := x.isLt
  have := y.isLt
  rw [tableMnemonic_of _ 8 0 _ (by simp only [encode, h, BitVec.toNat_ofNat]; omega) (by simp only [encode, h, BitVec.toNat_ofNat]; omega) rfl]
  simp [mnemonicOf]

theorem orReg (x y : Nibble) : Statement (.orReg x y) := by
  intro _
  have h := formatXYN_toNat 0x8#4 x y 0x1#4
  have := x.isLt
  have := y.isLt
  rw [tableMnemonic_of _ 8 1 _ (by simp only [encode, h, BitVec.toNat_ofNat]; omega) (by simp only [encode, h, BitVec.toNat_ofNat]; omega) rfl]
  simp [mnemonicOf]

theorem andReg (x y : Nibble) : Statement (.andReg x y) := by
  intro _
  have h := formatXYN_toNat 0x8#4 x y 0x2#4
  have := x.isLt
  have := y.isLt
  rw [tableMnemonic_of _ 8 2 _ (by simp only [encode, h, BitVec.toNat_ofNat]; omega) (by simp only [encode, h, BitVec.toNat_ofNat]; omega) rfl]
  simp [mnemonicOf]

theorem xorReg (x y : Nibble) : Statement (.xorReg x y) := by
  intro _
  have h := formatXYN_toNat 0x8#4 x y 0x3#4
  have := x.isLt
  have := y.isLt
  rw [tableMnemonic_of _ 8 3 _ (by simp only [encode, h, BitVec.toNat_ofNat]; omega) (by simp only [encode, h, BitVec.toNat_ofNat]; omega) rfl]
  simp [mnemonicOf]

theorem addReg (x y : Nibble) : Statement (.addReg x y) := by
  intro _
  have h := formatXYN_toNat 0x8#4 x y 0x4#4
  have := x.isLt
  have := y.isLt
  rw [tableMnemonic_of _ 8 4 _ (by simp only [encode, h, BitVec.toNat_ofNat]; omega) (by simp only [encode, h, BitVec.toNat_ofNat]; omega) rfl]
  simp [mnemonicOf]

theorem sub (x y : Nibble) : Statement (.sub x y) := by
  intro _
  have h := formatXYN_toNat 0x8#4 x y 0x5#4
  have := x.isLt
  have := y.isLt
  rw [tableMnemonic_of _ 8 5 _ (by simp only [encode, h, BitVec.toNat_ofNat]; omega) (by simp only [encode, h, BitVec.toNat_ofNat]; omega) rfl]
  simp [mnemonicOf]

theorem shr (x y : Nibble) : Statement (.shr x y) := by
  intro _
  have h := formatXYN_toNat 0x8#4 x y 0x6#4
  have := x.isLt
  have := y.isLt
  rw [tableMnemonic_of _ 8 6 _ (by simp only [encode, h, BitVec.toNat_ofNat]; omega) (by simp only [encode, h, BitVec.toNat_ofNat]; omega) rfl]
  simp [mnemonicOf]

theorem subn (x y : Nibble) : Statement (.subn x y) := by
  intro _
  have h := formatXYN_toNat 0x8#4 x y 0x7#4
  have := x.isLt
  have := y.isLt
  rw [tableMnemonic_of _ 8 7 _ (by simp only [encode, h, BitVec.toNat_ofNat]; omega) (by simp only [encode, h, BitVec.toNat_ofNat]; omega) rfl]
  simp [mnemonicOf]

theorem shl (x y : Nibble) : Statement (.shl x y) := by
  intro _
  have h := formatXYN_toNat 0x8#4 x y 0xE#4
  have := x.isLt
  have := y.isLt
  rw [tableMnemonic_of _ 8 14 _ (by simp only [encode, h, BitVec.toNat_ofNat]; omega) (by simp only [encode, h, BitVec.toNat_ofNat]; omega) rfl]
  simp [mnemonicOf]

theorem sneReg (x y ign : Nibble) : Statement (.sneReg x y ign) := by
  intro _
  have h := formatXYN_toNat 0x9#4 x y ign
  have := x.isLt
  have := y.isLt
  have := ign.isLt
  rw [tableMnemonic_of _ 9 _ _ (by simp only [encode, h, BitVec.toNat_ofNat]; omega) rfl rfl]
  simp [mnemonicOf]

theorem ldI (nnn : Addr) : Statement (.ldI nnn) := by
  intro _
  have h := formatA_toNat 0xA#4 nnn
  have := nnn.isLt
  rw [tableMnemonic_of _ 10 _ _ (by simp only [encode, h, BitVec.toNat_ofNat]; omega) rfl rfl]
  simp [mnemonicOf]

theorem jpV0 (nnn : Addr) : Statement (.jpV0 nnn) := by
  intro _
  have h := formatA_toNat 0xB#4 nnn
  have := nnn.isLt
  rw [tableMnemonic_of _ 11 _ _ (by simp only [encode, h, BitVec.toNat_ofNat]; omega) rfl rfl]
  simp [mnemonicOf]

theorem rnd (x : Nibble) (nn : Byte) : Statement (.rnd x nn) := by
  intro _
  have h := formatXNN_toNat 0xC#4 x nn
  have := x.isLt
  have := nn.isLt
  rw [tableMnemonic_of _ 12 _ _ (by simp only [encode, h, BitVec.toNat_ofNat]; omega) rfl rfl]
  simp [mnemonicOf]

theorem drw (x y n : Nibble) : Statement (.drw x y n) := by
  intro _
  have h := formatXYN_toNat 0xD#4 x y n
  have := x.isLt
  have := y.isLt
  have := n.isLt
  rw [tableMnemonic_of _ 13 _ _ (by simp only [encode, h, BitVec.toNat_ofNat]; omega) rfl rfl]
  simp [mnemonicOf]

theorem skp (x ign : Nibble) : Statement (.skp x ign) := by
  intro _
  have h := formatXYN_toNat 0xE#4 x ign 0xE#4
  have := x.isLt
  have := ign.isLt
  rw [tableMnemonic_of _ 14 14 _ (by simp only [encode, h, BitVec.toNat_ofNat]; omega) (by simp only [encode, h, BitVec.toNat_ofNat]; omega) rfl]
  simp [mnemonicOf]

theorem sknp (x ign : Nibble) : Statement (.sknp x ign) := by
  intro _
  have h := formatXYN_toNat 0xE#4 x ign 0x1#4
  have := x.isLt
  have := ign.isLt
  rw [tableMnemonic_of _ 14 1 _ (by simp only [encode, h, BitVec.toNat_ofNat]; omega) (by simp only [encode, h, BitVec.toNat_ofNat]; omega) rfl]
  simp [mnemonicOf]

theorem ldVxDt (x : Nibble) : Statement (.ldVxDt x) := by
  intro _
  have h := formatXNN_toNat 0xF#4 x 0x07#8
  have := x.isLt
  rw [tableMnemonic_of _ 15 7 7 (by simp only [encode, h, BitVec.toNat_ofNat]; omega) (by simp only [encode, h, BitVec.toNat_ofNat]; omega) (by simp only [encode, h, BitVec.toNat_ofNat]; omega)]
  simp [mnemonicOf]

theorem ldVxK (x : Nibble) : Statement (.ldVxK x) := by
  intro _
  have h := formatXNN_toNat 0xF#4 x 0x0A#8
  have := x.isLt
  rw [tableMnemonic_of _ 15 10 10 (by simp only [encode, h, BitVec.toNat_ofNat]; omega) (by simp only [encode, h, BitVec.toNat_ofNat]; omega) (by simp only [encode, h, BitVec.toNat_ofNat]; omega)]
  simp [mnemonicOf]

theorem ldDtVx (x : Nibble) : Statement (.ldDtVx x) := by
  intro _
  have h := formatXNN_toNat 0xF#4 x 0x15#8
  have := x.isLt
  rw [tableMnemonic_of _ 15 5 21 (by simp only [encode, h, BitVec.toNat_ofNat]; omega) (by simp only [encode, h, BitVec.toNat_ofNat]; omega) (by simp only [encode, h, BitVec.toNat_ofNat]; omega)]
  simp [mnemonicOf]

theorem ldStVx (x : Nibble) : Statement (.ldStVx x) := by
  intro _
  have h := formatXNN_toNat 0xF#4 x 0x18#8
  have := x.isLt
  rw [tableMnemonic_of _ 15 8 24 (by simp only [encode, h, BitVec.toNat_ofNat]; omega) (by simp only [encode, h, BitVec.toNat_ofNat]; omega) (by simp only [encode, h, BitVec.toNat_ofNat]; omega)]
  simp [mnemonicOf]

theorem addI (x : Nibble) : Statement (.addI x) := by
  intro _
  have h := formatXNN_toNat 0xF#4 x 0x1E#8
  have := x.isLt
  rw [tableMnemonic_of _ 15 14 30 (by simp only [encode, h, BitVec.toNat_ofNat]; omega) (by simp only [encode, h, BitVec.toNat_ofNat]; omega) (by simp only [encode, h, BitVec.toNat_ofNat]; omega)]
  simp [mnemonicOf]

theorem ldF (x : Nibble) : Statement (.ldF x) := by
  intro _
  have h := formatXNN_toNat 0xF#4 x 0x29#8
  have := x.isLt
  rw [tableMnemonic_of _ 15 9 41 (by simp only [encode, h, BitVec.toNat_ofNat]; omega) (by simp only [encode, h, BitVec.toNat_ofNat]; omega) (by simp only [encode, h, BitVec.toNat_ofNat]; omega)]
  simp [mnemonicOf]

theorem ldB (x : Nibble) : Statement (.ldB x) := by
  intro _
  have h := formatXNN_toNat 0xF#4 x 0x33#8
  have := x.isLt
  rw [tableMnemonic_of _ 15 3 51 (by simp only [encode, h, BitVec.toNat_ofNat]; omega) (by simp only [encode, h, BitVec.toNat_ofNat]; omega) (by simp only [encode, h, BitVec.toNat_ofNat]; omega)]
  simp [mnemonicOf]

theorem ldMemVx (x : Nibble) : Statement (.ldMemVx x) := by
  intro _
  have h := formatXNN_toNat 0xF#4 x 0x55#8
  have := x.isLt
  rw [tableMnemonic_of _ 15 5 85 (by simp only [encode, h, BitVec.toNat_ofNat]; omega) (by simp only [encode, h, BitVec.toNat_ofNat]; omega) (by simp only [encode, h, BitVec.toNat_ofNat]; omega)]
  simp [mnemonicOf]

theorem ldVxMem (x : Nibble) : Statement (.ldVxMem x) := by
  intro _
  have h := formatXNN_toNat 0xF#4 x 0x65#8
  have := x.isLt
  rw [tableMnemonic_of _ 15 5 101 (by simp only [encode, h, BitVec.toNat_ofNat]; omega) (by simp only [encode, h, BitVec.toNat_ofNat]; omega) (by simp only [encode, h, BitVec.toNat_ofNat]; omega)]
  simp [mnemonicOf]

theorem nop (w : Word) : Statement (.nop w) := by
  intro h
  change tableMnemonic w = .nop
  simp only [Instr.wellFormed, isNopWord, Bool.or_eq_true, Bool.and_eq_true, beq_iff_eq, Bool.not_eq_true',
    Bool.or_eq_false_iff, beq_eq_false_iff_ne, decide_eq_true_eq] at h
  rw [tableMnemonic_of w _ _ _ rfl rfl rfl]
  repeat refine (if_neg (by omega)).trans ?_
  rfl

end Sys2Proof.Laws.TableRow
end

