-- ==== Sys2Proof/Tests/Slice0.lean ====
section
/-! SUPPORT. Small tests of the model: every expected result comes from spec 95 (its vectors' names stand at the tests),
from spec 30's encodings, or from the rule named. -/

namespace Sys2Proof.Tests

open Sys2Proof.Machine

/-! ### Helpers -/

/-- The reset state with a word where the first step fetches. -/
def atWord (w : Nat) : State := State.reset.withFetchWord 16 w

/-- Whether a result is a next state of which `f` holds. -/
def nextIs (r : StepResult) (f : State → Bool) : Bool :=
  match r with
  | .next t => f t
  | _ => false

/-- Whether one step from `s` ends in a state of which `f` holds. -/
def after (s : State) (f : State → Bool) : Bool := nextIs (step s) f

/-- `s` with other parameters. -/
def State.withCfg (s : State) (cfg : Config) : State := { s with cfg := cfg }

/-- The default parameters with one changed. -/
def oobCfg (p : BoundsPolicy) : Config := { Config.default with oob := p }

def stackCfg (p : BoundsPolicy) : Config := { Config.default with stackPolicy := p }

def edgeCfg (e : DrawEdge) : Config := { Config.default with drawEdge := e }

/-- Bytes stored at ascending addresses. -/
def State.bytes (s : State) (a : Nat) (l : List Byte) : State := s.copyBytes a l

/-- A whole state against another, but for the scratch word `w`, which no step leaves with a value. -/
def sameButW (t u : State) : Bool := decide ({ t with w := 0, lapses := 0 } = { u with w := 0, lapses := 0 })

/-! ### Well-formedness: an ill-formed term for each check (spec 30 R83) -/

theorem test_illformed_nop_of_defined_group : Instr.wellFormed (.nop 0x6A3F) = false := by decide

theorem test_illformed_nop_group0 : Instr.wellFormed (.nop 0x00E0) = false ∧ Instr.wellFormed (.nop 0x00EE) = false := by
  decide

theorem test_illformed_nop_group8 : Instr.wellFormed (.nop 0x8124) = false ∧ Instr.wellFormed (.nop 0x812E) = false := by
  decide

theorem test_illformed_nop_groupE : Instr.wellFormed (.nop 0xE59E) = false ∧ Instr.wellFormed (.nop 0xE5A1) = false := by
  decide

theorem test_illformed_nop_groupF : Instr.wellFormed (.nop 0xF107) = false ∧ Instr.wellFormed (.nop 0xF165) = false := by
  decide

theorem test_wellformed_nop_words :
    [0x0001, 0x000F, 0x8008, 0x800F, 0xE000, 0xF000, 0xFFFF].all (fun w => Instr.wellFormed (.nop w)) = true := by decide

/-! ### Decoding: words written out from spec 30 R75 to R79 and R85, X = 0xA, Y = 0x5 -/

theorem test_decode_group0 : decode 0x00E0 = .cls 0x0E ∧ decode 0x00EE = .ret 0x0E ∧ decode 0x0000 = .cls 0x00 := by decide

theorem test_decode_jumps : decode 0x1ABC = .jp 0xABC ∧ decode 0x2300 = .call 0x300 ∧ decode 0xBFFF = .jpV0 0xFFF := by decide

theorem test_decode_skips : decode 0x3A42 = .seImm 0xA 0x42 ∧ decode 0x4A42 = .sneImm 0xA 0x42 ∧
    decode 0x5A50 = .seReg 0xA 0x5 0x0 ∧ decode 0x9A50 = .sneReg 0xA 0x5 0x0 := by decide

theorem test_decode_immediates : decode 0x6A3F = .ldImm 0xA 0x3F ∧ decode 0x7A3F = .addImm 0xA 0x3F ∧
    decode 0xCA0F = .rnd 0xA 0x0F := by decide

theorem test_decode_alu : decode 0x8A50 = .ldReg 0xA 0x5 ∧ decode 0x8A51 = .orReg 0xA 0x5 ∧ decode 0x8A52 = .andReg 0xA 0x5 ∧
    decode 0x8A53 = .xorReg 0xA 0x5 ∧ decode 0x8A54 = .addReg 0xA 0x5 ∧ decode 0x8A55 = .sub 0xA 0x5 ∧
    decode 0x8A56 = .shr 0xA 0x5 ∧ decode 0x8A57 = .subn 0xA 0x5 ∧ decode 0x8A5E = .shl 0xA 0x5 := by decide

theorem test_decode_display : decode 0xDA5F = .drw 0xA 0x5 0xF := by decide

theorem test_decode_keys : decode 0xEA9E = .skp 0xA 0x9 ∧ decode 0xEAA1 = .sknp 0xA 0xA ∧ decode 0xFA0A = .ldVxK 0xA := by decide

theorem test_decode_timers : decode 0xFA07 = .ldVxDt 0xA ∧ decode 0xFA15 = .ldDtVx 0xA ∧ decode 0xFA18 = .ldStVx 0xA := by decide

theorem test_decode_index : decode 0xA2F0 = .ldI 0x2F0 ∧ decode 0xFA1E = .addI 0xA ∧ decode 0xFA29 = .ldF 0xA ∧
    decode 0xFA33 = .ldB 0xA ∧ decode 0xFA55 = .ldMemVx 0xA ∧ decode 0xFA65 = .ldVxMem 0xA := by decide

theorem test_decode_nop : decode 0x8008 = .nop 0x8008 ∧ decode 0xE000 = .nop 0xE000 ∧ decode 0xFFFF = .nop 0xFFFF := by decide

theorem test_decode_aliases : decode 0x577F = .seReg 7 7 0xF ∧ decode 0xE50E = .skp 5 0 ∧ decode 0xE501 = .sknp 5 0 ∧
    decode 0x0120 = .cls 0x12 := by decide

theorem test_decode_bytes : decodeBytes false [0x6A, 0x3F, 0x12] = .ok (.ldImm 0xA 0x3F, [0x12]) ∧
    decodeBytes false [0x6A] = .error .truncated ∧ decodeBytes true [0xE5, 0x0E] = .error (.aliasRefused 0xE50E) := by decide

theorem test_decode_table_word : decodeTableWord 16 0xD01F = some (.drw 0 1 0xF) := by decide

/-! ### The step (spec 40) -/

/-- V-ST-1. -/
theorem test_nop : after { atWord 0x8008 with dt := 3, st := 1 } (fun t => t.pc == 0x202 && t.dt == 2 && t.st == 0) = true := by
  decide

/-- V-ST-4: an empty memory runs 0x0000, and a fetch past the end raises. -/
theorem test_fetch_past_end : after { State.reset with pc := 0x1000, dt := 2 }
    (fun t => t.fault == some (.memOutOfRange 0x1000) && t.pc == 0x1000 && t.dt == 2) = true := by decide

/-- V-ST-5. -/
theorem test_fetch_straddles_end : after { State.reset with pc := 0xFFF, dt := 2 }
    (fun t => t.fault == some (.memOutOfRange 0x1000) && t.pc == 0xFFF && t.dt == 2) = true := by decide

/-- V-ST-5 under OOB_POLICY = Wrap: 0x12 at 0xFFF and glyph 0's 0xF0 at 0x000 make a jump. -/
theorem test_fetch_wraps : after (State.withCfg ((State.bytes State.reset 0xFFF [0x12])) (oobCfg .wrap) |> fun s => { s with pc := 0xFFF })
    (fun t => t.pc == 0x2F0) = true := by decide

/-- V-ST-6. -/
theorem test_faulted_stands : after { atWord 0x7001 with fault := some (.stackOverflow 16), dt := 4 }
    (fun t => decide (t = { atWord 0x7001 with fault := some (.stackOverflow 16), dt := 4 })) = true := by decide

/-- V-ST-7. -/
theorem test_odd_pc : after { State.bytes State.reset 0x201 [0x61, 0x07] with pc := 0x201 }
    (fun t => t.getReg 1 == 7 && t.pc == 0x203) = true := by decide

/-! ### Control flow (spec 41) -/

/-- V-CF-1. -/
theorem test_jp : after (atWord 0x1ABC) (fun t => t.pc == 0xABC) = true := by decide

/-- V-CF-2. -/
theorem test_call : after (({ State.reset with pc := 0x250, sp := 3 } : State).withFetchWord 16 0x2400)
    (fun t => t.stack[3] == 0x252 && t.sp == 4 && t.pc == 0x400) = true := by decide

/-- V-CF-3: nothing but the fault register changes. -/
theorem test_call_overflow : after { atWord 0x2400 with sp := 16, dt := 7 }
    (fun t => sameButW t { atWord 0x2400 with sp := 16, dt := 7, fault := some (.stackOverflow 16) }) = true := by decide

/-- V-CF-5. -/
theorem test_ret : after { atWord 0x00EE with sp := 16, stack := (Vector.replicate 16 0).set 15 0x33A }
    (fun t => t.sp == 15 && t.pc == 0x33A && t.stack[15] == 0x33A) = true := by decide

/-- V-CF-4: underflow under Fault, and slot 15 under Wrap. -/
theorem test_ret_underflow : after (atWord 0x00EE) (fun t => t.fault == some (.stackUnderflow 0) && t.pc == 0x200) = true ∧
    after { atWord 0x00EE with cfg := stackCfg .wrap, stack := (Vector.replicate 16 0).set 15 0x2AA }
      (fun t => t.sp == 15 && t.pc == 0x2AA) = true := by decide

/-- V-CF-6 and V-CF-7. -/
theorem test_jpV0 : after ((atWord 0xBFFF).setReg 0 0xFF) (fun t => t.pc == 0x10FE) = true ∧
    after ((atWord 0xB300).setReg 0 3) (fun t => t.pc == 0x303) = true := by decide

/-- V-CF-8. -/
theorem test_seImm : after (atWord 0x3000) (fun t => t.pc == 0x204) = true ∧
    after (atWord 0x3001) (fun t => t.pc == 0x202) = true := by decide

/-- V-CF-9. -/
theorem test_sneImm : after ((atWord 0x4F01).setReg 0xF 1) (fun t => t.pc == 0x202) = true ∧
    after (atWord 0x4F01) (fun t => t.pc == 0x204) = true := by decide

/-- V-CF-10, its alias too. -/
theorem test_seReg : after (atWord 0x577F) (fun t => t.pc == 0x204) = true ∧
    after ((atWord 0x5120).setReg 1 7) (fun t => t.pc == 0x202) = true := by decide

/-- V-CF-11. -/
theorem test_sneReg : after (atWord 0x9770) (fun t => t.pc == 0x202) = true ∧
    after (((atWord 0x9125).setReg 1 1).setReg 2 2) (fun t => t.pc == 0x204) = true := by decide

/-- V-CF-12. -/
theorem test_skp : after (((atWord 0xE50E).setReg 5 0xF).setKey 0xF true) (fun t => t.pc == 0x204) = true ∧
    after ((atWord 0xE59E).setReg 5 0xF) (fun t => t.pc == 0x202) = true := by decide

/-- V-CF-13. -/
theorem test_skp_out_of_range : after ((atWord 0xE59E).setReg 5 0x10) (fun t => t.fault == some (.keyOutOfRange 0x10)) = true ∧
    after (State.withCfg (((atWord 0xE59E).setReg 5 0x10).setKey 0 true) (oobCfg .wrap)) (fun t => t.pc == 0x204) = true := by decide

/-- V-CF-14. -/
theorem test_sknp : after ((atWord 0xE5A1).setReg 5 3) (fun t => t.pc == 0x204) = true ∧
    after (((atWord 0xE501).setReg 5 3).setKey 3 true) (fun t => t.pc == 0x202) = true := by decide

/-- V-CF-14 under STRICT_DECODE: the alias is refused. -/
theorem test_strict_alias : (match step { atWord 0xE501 with cfg := { Config.default with strictDecode := true } } with
    | .refused q => decide (q = .strictAlias 0xE501)
    | _ => false) = true := by decide

/-! ### Register loads and the ALU (spec 42) -/

/-- E1. -/
theorem test_ldImm : after (atWord 0x6A3F) (fun t => sameButW t ({ (atWord 0x6A3F).setReg 0xA 0x3F with pc := 0x202 })) = true := by
  decide

/-- V-AL-2: a carry out of VF itself sets no flag. -/
theorem test_addImm : after (((atWord 0x7301).setReg 0xF 1).setReg 3 0xFF) (fun t => t.getReg 3 == 0 && t.getReg 0xF == 1) = true ∧
    after ((atWord 0x7FFF).setReg 0xF 1) (fun t => t.getReg 0xF == 0) = true := by decide

/-- V-AL-3. -/
theorem test_ldReg : after (((atWord 0x8120).setReg 1 0x12).setReg 2 0x34) (fun t => t.getReg 1 == 0x34 && t.getReg 2 == 0x34) = true := by
  decide

/-- V-AL-4. -/
theorem test_or : after ((((atWord 0x8121).setReg 0xF 0x77).setReg 1 0x0F).setReg 2 0xF0)
    (fun t => t.getReg 1 == 0xFF && t.getReg 0xF == 0x77) = true := by decide

/-- V-AL-4. -/
theorem test_and : after ((((atWord 0x8122).setReg 0xF 0x77).setReg 1 0x0F).setReg 2 0xF0)
    (fun t => t.getReg 1 == 0x00 && t.getReg 0xF == 0x77) = true := by decide

/-- V-AL-4, and R125's example. -/
theorem test_xor : after (((atWord 0x8123).setReg 1 0x3C).setReg 2 0x0F) (fun t => t.getReg 1 == 0x33) = true ∧
    after ((atWord 0x8113).setReg 1 0x0F) (fun t => t.getReg 1 == 0) = true := by decide

/-- E2 (a) and V-AL-5. -/
theorem test_addReg : after (((atWord 0x8124).setReg 1 0xFA).setReg 2 0x0A) (fun t => t.getReg 1 == 4 && t.getReg 0xF == 1) = true ∧
    after (((atWord 0x8124).setReg 1 0xFF).setReg 2 0x00) (fun t => t.getReg 1 == 0xFF && t.getReg 0xF == 0) = true := by decide

/-- V-AL-6: the destination is VF, which ends as the carry. -/
theorem test_addReg_into_VF : after (((atWord 0x8F14).setReg 0xF 0x80).setReg 1 0x90) (fun t => t.getReg 0xF == 1) = true ∧
    after ((atWord 0x8FF4).setReg 0xF 0x01) (fun t => t.getReg 0xF == 0) = true := by decide

/-- E3 (b) and V-AL-8: equal operands give flag 0. -/
theorem test_sub : after (((atWord 0x8125).setReg 1 3).setReg 2 5) (fun t => t.getReg 1 == 0xFE && t.getReg 0xF == 0) = true ∧
    after (((atWord 0x8125).setReg 1 0x40).setReg 2 0x40) (fun t => t.getReg 1 == 0 && t.getReg 0xF == 0) = true := by decide

/-- V-AL-9. -/
theorem test_sub_into_VF : after (((atWord 0x8F15).setReg 0xF 5).setReg 1 3) (fun t => t.getReg 0xF == 1) = true := by decide

/-- V-AL-12, under both SHIFT_SOURCE values. -/
theorem test_shr : after ((atWord 0x8106).setReg 1 0x01) (fun t => t.getReg 1 == 0 && t.getReg 0xF == 1) = true ∧
    after (State.withCfg (((atWord 0x8126).setReg 1 0xFF).setReg 2 0x04) { Config.default with shiftSource := .vy })
      (fun t => t.getReg 1 == 2 && t.getReg 0xF == 0) = true := by decide

/-- V-AL-11. -/
theorem test_subn : after (((atWord 0x8127).setReg 1 3).setReg 2 5) (fun t => t.getReg 1 == 2 && t.getReg 0xF == 1) = true ∧
    after (((atWord 0x8127).setReg 1 5).setReg 2 3) (fun t => t.getReg 1 == 0xFE && t.getReg 0xF == 0) = true := by decide

/-- V-AL-13, under both SHIFT_SOURCE values. -/
theorem test_shl : after ((atWord 0x810E).setReg 1 0x80) (fun t => t.getReg 1 == 0 && t.getReg 0xF == 1) = true ∧
    after (State.withCfg ((atWord 0x812E).setReg 2 0x81) { Config.default with shiftSource := .vy })
      (fun t => t.getReg 1 == 2 && t.getReg 0xF == 1) = true := by decide

/-- R131: one draw, also for NN = 0 (V-AL-14: the draw itself is free, so only what holds for every draw is tested). -/
theorem test_rnd : after (atWord 0xC000) (fun t => t.draws == 1 && t.pc == 0x202) = true := by decide

/-! ### Index register and memory (spec 43) -/

/-- V-IM-1. -/
theorem test_ldI : after (atWord 0xAFFF) (fun t => t.index == 0x0FFF) = true := by decide

/-- V-IM-2. -/
theorem test_addI : after ({ atWord 0xF01E with index := 0xFFF }.setReg 0 1) (fun t => t.index == 0x1000 && t.getReg 0xF == 0) = true ∧
    after ({ atWord 0xF01E with index := 0xFFFF }.setReg 0 2) (fun t => t.index == 1) = true := by decide

/-- V-IM-3. -/
theorem test_ldF : after ((atWord 0xF329).setReg 3 0x0F) (fun t => t.index == 0x04B) = true ∧
    after ((atWord 0xF329).setReg 3 0xFF) (fun t => t.index == 0x4FB) = true := by decide

/-- V-IM-4. -/
theorem test_ldB : after ({ atWord 0xF733 with index := 0x300 }.setReg 7 156)
    (fun t => t.byteAt 0x300 == 1 && t.byteAt 0x301 == 5 && t.byteAt 0x302 == 6) = true := by decide

/-- V-IM-5: no byte of a faulting store lands; under Clamp the ones digit ends at 0xFFF. -/
theorem test_ldB_out_of_range : after ({ atWord 0xF733 with index := 0xFFE }.setReg 7 123)
      (fun t => t.fault == some (.memOutOfRange 0x1000) && t.byteAt 0xFFE == 0 && t.byteAt 0xFFF == 0) = true ∧
    after ({ atWord 0xF733 with index := 0xFFE, cfg := oobCfg .clamp }.setReg 7 123)
      (fun t => t.byteAt 0xFFE == 1 && t.byteAt 0xFFF == 3) = true := by decide

/-- R144's example. -/
theorem test_ldMemVx : after ((({ atWord 0xF255 with index := 0x400 }.setReg 0 0x11).setReg 1 0x22).setReg 2 0x33)
    (fun t => t.byteAt 0x400 == 0x11 && t.byteAt 0x401 == 0x22 && t.byteAt 0x402 == 0x33 && t.byteAt 0x403 == 0 &&
      t.index == 0x400) = true := by decide

/-- V-IM-8. -/
theorem test_ldMemVx_out_of_range : after (({ atWord 0xF255 with index := 0xFFE }.setReg 0 0x11).setReg 1 0x22)
    (fun t => t.fault == some (.memOutOfRange 0x1000) && t.byteAt 0xFFE == 0) = true := by decide

/-- V-IM-10. -/
theorem test_ldVxMem : after (atWord 0xF465)
    (fun t => [t.getReg 0, t.getReg 1, t.getReg 2, t.getReg 3, t.getReg 4, t.getReg 5] == [0xF0, 0x90, 0x90, 0x90, 0xF0, 0]) = true := by
  decide

/-- R145: a load that faults writes no register. -/
theorem test_ldVxMem_out_of_range : after ({ atWord 0xF165 with index := 0xFFF }.setReg 0 9)
    (fun t => t.fault == some (.memOutOfRange 0x1000) && t.getReg 0 == 9) = true := by decide

/-! ### Display (spec 44) -/

/-- V-DI-1 and V-ST-3. -/
theorem test_cls : after ({ atWord 0x0000 with fb := [5, 70] }.setReg 0xF 5) (fun t => t.fb == [] && t.getReg 0xF == 5) = true := by
  decide

/-- V-DI-3: glyph 0 at the top left corner. -/
theorem test_drw_glyph : after (atWord 0xD015)
    (fun t => t.fb == [0, 1, 2, 3, 64, 67, 128, 131, 192, 195, 256, 257, 258, 259] && t.getReg 0xF == 0) = true := by decide

/-- V-DI-5: the right edge under Linear, Clip and Wrap. -/
theorem test_drw_right_edge :
    (let s := State.bytes ({ atWord 0xD011 with index := 0x300 }.setReg 0 60) 0x300 [0xFF]
     after s (fun t => t.fb == [60, 61, 62, 63, 64, 65, 66, 67]) &&
     after (State.withCfg s (edgeCfg .clip)) (fun t => t.fb == [60, 61, 62, 63]) &&
     after (State.withCfg s (edgeCfg .wrap)) (fun t => t.fb == [0, 1, 2, 3, 60, 61, 62, 63])) = true := by decide

/-- V-DI-6: the bottom edge under Linear with Fault, Wrap and Clamp. -/
theorem test_drw_bottom_edge :
    (let s := State.bytes ({ atWord 0xD012 with index := 0x300 }.setReg 1 31) 0x300 [0x80, 0x80]
     after s (fun t => t.fault == some (.frameOutOfRange 2048) && t.fb == [] && t.pc == 0x200) &&
     after (State.withCfg s (oobCfg .wrap)) (fun t => t.fb == [0, 1984]) &&
     after (State.withCfg s (oobCfg .clamp)) (fun t => t.fb == [1984, 2047])) = true := by decide

/-- V-DI-8: a partial collision. -/
theorem test_drw_collision : after (State.bytes { atWord 0xD011 with index := 0x300, fb := [0] } 0x300 [0xC0])
    (fun t => t.fb == [1] && t.getReg 0xF == 1) = true := by decide

/-- V-DI-2: height 0 reads no memory and clears VF. -/
theorem test_drw_height_0 : after ({ atWord 0xD010 with index := 0xFFFF, fb := [9] }.setReg 0xF 1)
    (fun t => t.fb == [9] && t.getReg 0xF == 0 && t.fault == none) = true := by decide

/-! ### Timers and keypad (spec 45) -/

/-- V-TK-1. -/
theorem test_ldVxDt : after { atWord 0xF007 with dt := 1 } (fun t => t.getReg 0 == 1 && t.dt == 0) = true := by decide

/-- R166's example, and V-TK-2. -/
theorem test_ldDtVx : after ((atWord 0xF215).setReg 2 5) (fun t => t.dt == 4) = true ∧
    after { atWord 0xF015 with dt := 9 } (fun t => t.dt == 0) = true := by decide

/-- V-TK-3. -/
theorem test_ldStVx : after ((atWord 0xF018).setReg 0 0xFF) (fun t => t.st == 0xFE) = true := by decide

/-- V-TK-4. -/
theorem test_ldVxK : after (((atWord 0xF10A).setKey 9 true).setKey 3 true) (fun t => t.getReg 1 == 3 && t.pc == 0x202) = true := by
  decide

/-- V-TK-5. -/
theorem test_ldVxK_waits : after { atWord 0xF10A with dt := 2, st := 2 }
    (fun t => t.pc == 0x200 && t.dt == 1 && t.st == 1 && t.getReg 1 == 0) = true := by decide

/-! ### Host ports (spec 60) and reset (spec 70) -/

/-- E7. -/
theorem test_loadImage : (match State.reset.loadImage [0x12, 0x34, 0x56] with
    | some t => t.byteAt 0x200 == 0x12 && t.byteAt 0x201 == 0x34 && t.byteAt 0x202 == 0x56 && t.byteAt 0x203 == 0 &&
      t.byteAt 0x1FF == 0 && t.byteAt 0 == 0xF0
    | none => false) = true := by decide

/-- R190. -/
theorem test_frameWord : ({ State.reset with fb := [7] } : State).frameWord 7 = 0xFFFFFFFF ∧ State.reset.frameWord 7 = 0 := by decide

/-- R201 and R55. -/
theorem test_reset : State.reset.pc = 0x200 ∧ State.reset.byteAt 0x000 = 0xF0 ∧ State.reset.byteAt 0x04F = 0x80 ∧
    State.reset.byteAt 0x050 = 0 ∧ State.reset.byteAt 0xFFF = 0 := by decide

/-! ### Witnesses: for each statement of Certificates/Slice0/Obligations.lean with hypotheses, states and operands that
meet them, for each clause at the ends of its range -/

/-- Whether a step from `s` fetches `w` and completes. -/
def completes (s : State) (w : Word) : Bool :=
  decide (s.fault = none ∧ s.fetch = .ok w) && after s (fun t => decide (t.fault = none))

theorem completes_sound {s : State} {w : Word} (h : completes s w = true) : ∃ t, Completes s t w := by
  unfold completes after nextIs at h
  rw [Bool.and_eq_true, decide_eq_true_eq] at h
  obtain ⟨⟨h1, h2⟩, h3⟩ := h
  split at h3
  · next t ht => exact ⟨t, h1, h2, ht, by simpa using h3⟩
  · cases h3

theorem reset_inv : State.reset.Inv :=
  ⟨by decide, by decide, Nat.zero_le 16⟩

/-- DecodeInvertsEncode: the ends of the no-op words, and a word of another group. -/
theorem witness_wellFormed :
    [Instr.nop 0x0001, .nop 0x8008, .nop 0xEFFF, .nop 0xFFFF, .cls 0x00, .drw 0xF 0xF 0xF].all Instr.wellFormed = true := by
  decide

/-- DecodeAgreesWithOpcodeTable, the second clause. -/
theorem witness_row_matches : (⟨.ldVxMem, 0xF0FF, 0xF065⟩ : OpcodeRow) ∈ opcodeTable ∧
    (⟨.ldVxMem, 0xF0FF, 0xF065⟩ : OpcodeRow).matchesWord 0xFA65 = true := by decide

/-- NoOpWordsAreExactlyTheListed: a word of each of its four clauses. -/
theorem witness_nop_words : [0x000F, 0x800F, 0xE00F, 0xF0FF].all (fun w => decide (decode w = .nop w)) = true := by decide

/-- The parameters with STRICT_DECODE = true. -/
def strictCfg : Config := { Config.default with strictDecode := true }

/-- StrictDecodeRefusesAliasesOnly: a strict alias, a strict word that is none, and an alias under false. -/
theorem witness_strict :
    (({ atWord 0xE501 with cfg := strictCfg } : State).fault = none ∧
      ({ atWord 0xE501 with cfg := strictCfg } : State).fetch = .ok 0xE501 ∧ AliasWord 0xE501) ∧
    (({ atWord 0xE5A1 with cfg := strictCfg } : State).fetch = .ok 0xE5A1 ∧ ¬AliasWord 0xE5A1) ∧
    ((atWord 0xE501).fetch = .ok 0xE501 ∧ (atWord 0xE501).cfg.strictDecode = false) := by
  refine ⟨⟨by decide, by decide, .inr (.inr (.inr ⟨0x5, 0x0, by decide, by decide⟩))⟩, ⟨by decide, ?_⟩, by decide⟩
  rw [← isAlias_decode_iff]
  decide

/-- StepRunsDecodedInstruction: a faulted state, a fetch that raises, and a word that runs. -/
theorem witness_step :
    ({ State.reset with fault := some (.stackOverflow 16) } : State).fault ≠ none ∧
    ({ State.reset with pc := 0xFFFF } : State).fetch = .error (.memOutOfRange 0xFFFF) ∧
    ((atWord 0x1ABC).fault = none ∧ (atWord 0x1ABC).fetch = .ok 0x1ABC ∧
      decodeWord (atWord 0x1ABC).cfg.strictDecode 0x1ABC = some (.jp 0xABC)) := by decide

/-- FetchReadsTwoBytesBigEndian: each clause at its boundary. -/
theorem witness_fetch :
    ({ State.reset with pc := 0xFFE } : State).pc.toNat ≤ 0xFFE ∧
    (({ State.reset with pc := 0xFFF } : State).cfg.oob = .fault ∧ ({ State.reset with pc := 0xFFF } : State).pc.toNat = 0xFFF) ∧
    (0xFFF < ({ State.reset with pc := 0x1000 } : State).pc.toNat ∧ State.reset.cfg.oob = .fault) ∧
    (oobCfg .wrap).oob = .wrap ∧ (oobCfg .clamp).oob = .clamp := by decide

/-- PlacedWordIsFetched, at the last address that takes a word. -/
theorem witness_placed : ({ State.reset with pc := 0xFFE } : State).mem.wf (resetByte State.reset.cfg) ∧
    ({ State.reset with pc := 0xFFE } : State).pc.toNat ≤ 0xFFE := by decide

/-- FaultedMachineNeverChanges. -/
theorem witness_faulted : ({ State.reset with fault := some (.memOutOfRange 0x1000) } : State).fault ≠ none := by decide

/-- A state of reset with a word to run, `sp` and V0. -/
def atWith (w : Nat) (sp v0 : Byte) : State := { (atWord w).setReg 0 v0 with sp := sp }

/-- FaultingStepIsAllOrNothing and FaultCausesAreAsListed: each cause at its boundary, from states that meet the
invariant. -/
theorem witness_causes :
    after { State.reset with pc := 0xFFF } (fun t => t.fault == some (.memOutOfRange 0x1000)) = true ∧
    after ({ atWord 0xD001 with index := 0xFFFF }) (fun t => t.fault == some (.memOutOfRange 0xFFFF)) = true ∧
    after ({ atWord 0xF033 with index := 0xFFE }) (fun t => t.fault == some (.memOutOfRange 0x1000)) = true ∧
    after ({ atWord 0xF055 with index := 0x1000 }) (fun t => t.fault == some (.memOutOfRange 0x1000)) = true ∧
    after ({ atWord 0xFF65 with index := 0xFF1 }) (fun t => t.fault == some (.memOutOfRange 0x1000)) = true ∧
    after ((atWith 0xD005 0 31)) (fun t => t.fault == some (.frameOutOfRange 2079)) = true ∧
    after (atWith 0xE09E 0 0x10) (fun t => t.fault == some (.keyOutOfRange 0x10)) = true ∧
    after (atWith 0xE0A1 0 0xFF) (fun t => t.fault == some (.keyOutOfRange 0xFF)) = true ∧
    after (atWith 0x2FFF 16 0) (fun t => t.fault == some (.stackOverflow 16)) = true ∧
    after (atWith 0x00EE 0 0) (fun t => t.fault == some (.stackUnderflow 0)) = true := by decide

/-- Their premise Inv: placing a word and setting V0 and `sp` in range keep it. -/
theorem witness_causes_inv : (atWith 0x2FFF 16 0).Inv ∧ (atWith 0x00EE 0 0).Inv ∧ (atWith 0xD005 0 31).Inv := by
  refine ⟨⟨?_, ?_, ?_⟩, ⟨?_, ?_, ?_⟩, ⟨?_, ?_, ?_⟩⟩ <;> first | decide | (change _ ≤ 16; decide)

/-- NoStepFaultsUnderWrapOrClamp: a step that would raise under Fault. -/
theorem witness_wrap_clamp :
    let s : State := { atWord 0x00EE with cfg := { Config.default with oob := .wrap, stackPolicy := .clamp } }
    s.cfg.oob ≠ .fault ∧ s.cfg.stackPolicy ≠ .fault ∧ s.fault = none ∧ after s (fun _ => true) = true := by decide

/-- EveryStepAnswersNext. -/
theorem witness_inv_lenient : State.reset.Inv ∧ State.reset.cfg.strictDecode = false := ⟨reset_inv, by decide⟩

/-- TimersTickOncePerCompletedStep, PcAfterEveryInstruction, and the other statements about completed steps: a word of
every instruction of the table completes. -/
theorem witness_completes :
    [0x00E0, 0x1ABC, 0x2FFF, 0x3000, 0x4001, 0x500F, 0x6FFF, 0x70FF, 0x8120, 0x8121, 0x8122, 0x8123, 0x8124, 0x8125, 0x8126,
      0x8127, 0x812E, 0x9120, 0xAFFF, 0xBFFF, 0xC0FF, 0xD01F, 0xE09E, 0xE0A1, 0xF007, 0xF015, 0xF018, 0xFF1E, 0xFF29, 0xF033,
      0xFF55, 0xFF65, 0xFFFF].all (fun w => completes (atWord w) (BitVec.ofNat 16 w)) = true ∧
    completes { atWord 0x00EE with sp := 16 } 0x00EE = true ∧ completes (atWord 0xF00A) 0xF00A = true ∧
    completes ((atWord 0xF00A).setKey 0xF true) 0xF00A = true := by decide

/-- PcAfterEveryInstruction: both ends of Wait-for-key's clauses. -/
theorem witness_keys : (atWord 0xF00A).key = Vector.replicate 16 false ∧
    ((atWord 0xF00A).setKey 0xF true).keyDown 0xF = true := by decide

/-- A state whose registers, timers and I are all away from what the instructions write. -/
def busy (w : Nat) : State := ((({ atWord w with dt := 9, st := 9, index := 0x300 }.setReg 1 0xF0).setReg 2 0x33).setReg 0xF 7).setKey 3 true

/-- RegistersChangeOnlyAsListed: a step of each listed instruction changes its register (RND's is free). -/
theorem witness_registers :
    [0x61AA, 0x7101, 0x8120, 0x8121, 0x8122, 0x8123, 0x8124, 0x8125, 0x8126, 0x8127, 0x812E, 0xF107, 0xF10A, 0xF165].all
      (fun w => after (busy w) (fun t => decide (t.fault = none ∧ t.getReg 1 ≠ (busy w).getReg 1))) = true ∧
    [0x8124, 0x8125, 0x8126, 0x8127, 0x812E, 0xD001].all
      (fun w => after (busy w) (fun t => decide (t.fault = none ∧ t.getReg 0xF ≠ (busy w).getReg 0xF))) = true := by decide

/-- StackAndSpChangeOnlyByCallAndReturn: the slot of a Call under each policy, and `sp` by Call and Return. -/
theorem witness_stack :
    after (atWith 0x2400 15 0) (fun t => t.stack[15] == 0x202 && t.sp == 16) = true ∧
    after { atWith 0x2400 16 0 with cfg := stackCfg .clamp } (fun t => t.stack[15] == 0x202 && t.sp == 16) = true ∧
    after { atWith 0x2400 15 0 with cfg := stackCfg .wrap } (fun t => t.stack[15] == 0x202 && t.sp == 0) = true ∧
    after (atWith 0x00EE 1 0) (fun t => t.sp == 0 && decide (t.fault = none)) = true := by decide

/-- EachStoreChangesOnlyByItsInstructions: a step of each listed instruction changes its store. -/
theorem witness_stores :
    after ({ atWord 0xF033 with index := 0xFFD }.setReg 0 255) (fun t => t.byteAt 0xFFF == 5) = true ∧
    after ({ atWord 0xF055 with index := 0xFFF }.setReg 0 1) (fun t => t.byteAt 0xFFF == 1) = true ∧
    after { atWord 0x0000 with fb := [2047] } (fun t => !t.fb.isOn 2047) = true ∧
    after (atWord 0xD001) (fun t => t.fb.isOn 0) = true ∧ after (atWord 0xAFFF) (fun t => t.index == 0xFFF) = true ∧
    after ((atWord 0xF01E).setReg 0 1) (fun t => t.index == 1) = true ∧
    after ((atWord 0xF029).setReg 0 255) (fun t => t.index == 0x4FB) = true ∧
    after (atWord 0xC000) (fun t => t.draws == 1) = true := by decide

/-- StepKeepsInvariant and HostMovesKeepInvariant: a state that meets the invariant and steps. -/
theorem witness_inv_steps : State.reset.Inv ∧ after State.reset (fun _ => true) = true := ⟨reset_inv, by decide⟩

/-- MemoryReadAfterWrite: a write above the end under Clamp, and an address that resolves with it and one that does
not. -/
theorem witness_memory :
    let s : State := { State.reset with cfg := oobCfg .clamp }
    s.mem.wf (resetByte s.cfg) ∧ s.memWrite 0x1000 7 = .ok (s.setByte 0xFFF 7) ∧
    resolve s.cfg.oob 0xFFF = resolve s.cfg.oob 0x1000 ∧ resolve s.cfg.oob 0xFFE ≠ resolve s.cfg.oob 0x1000 := by decide

/-- LoadPortCopiesOrRejects: the longest image that is copied and the shortest that is rejected. -/
theorem witness_images : State.reset.mem.wf (resetByte State.reset.cfg) ∧ (List.replicate 3584 (0xAA : Byte)).length ≤ 3584 ∧
    3584 < (List.replicate 3585 (0xAA : Byte)).length := by
  refine ⟨by decide, ?_, ?_⟩ <;> rw [List.length_replicate]
  omega

/-- FrameBufferPortShowsCells: a cell that is on and one that is off. -/
theorem witness_cells : ({ State.reset with fb := [2047] } : State).fb.isOn 2047 = true ∧ State.reset.fb.isOn 2047 = false := by
  decide

/-- CallPushesAndJumps and ReturnPopsPc: `sp` at the ends of each clause. -/
theorem witness_sp :
    ((atWith 0 15 0).cfg.stackPolicy ≠ .wrap ∧ (atWith 0 15 0).sp.toNat < 16) ∧
    ((atWith 0 16 0).cfg.stackPolicy = .fault ∧ 16 ≤ (atWith 0 16 0).sp.toNat) ∧
    ((stackCfg .clamp).stackPolicy = .clamp ∧ (stackCfg .wrap).stackPolicy = .wrap ∧ (atWith 0 15 0).sp.toNat % 16 < 16) ∧
    (1 ≤ (atWith 0 16 0).sp.toNat ∧ (atWith 0 16 0).sp.toNat - 1 < 16) ∧ (atWith 0 0 0).sp = 0 ∧
    ((atWith 0 0 0).sp.toNat + 15) % 16 < 16 := by decide

/-- CallThenReturnComesBack, and ReturnStopsOnIllegalStackPointer under Fault and Clamp. -/
theorem witness_call_return : (atWith 0 15 0).sp.toNat ≤ 15 ∧
    (16 < (atWith 0 17 0).sp.toNat ∧ (atWith 0 17 0).cfg.stackPolicy ≠ .wrap ∧ (stackCfg .clamp).stackPolicy ≠ .wrap) := by decide

/-- KeySkips: each of its clauses, V0 at 15, 16 and 255. -/
theorem witness_key_values :
    (0xF#4 : Nibble).toNat = ((atWith 0 0 15).getReg 0).toNat ∧
    (15 < ((atWith 0 0 16).getReg 0).toNat ∧ (oobCfg .wrap).oob = .wrap ∧
      (0x0#4 : Nibble).toNat = ((atWith 0 0 16).getReg 0).toNat % 16) ∧
    (15 < ((atWith 0 0 255).getReg 0).toNat ∧ (oobCfg .clamp).oob = .clamp) ∧
    (15 < ((atWith 0 0 16).getReg 0).toNat ∧ (atWith 0 0 16).cfg.oob = .fault) := by decide

/-- ShiftsSetShiftedOutBit: each SHIFT_SOURCE. -/
theorem witness_shift_source : State.reset.cfg.shiftSource = .vx ∧
    ({ Config.default with shiftSource := .vy } : Config).shiftSource = .vy := by decide

/-- BcdStoreWritesThreeDigits: the last place in range, a place where two digits meet under Clamp, and the first place
out of range under Fault. -/
theorem witness_bcd :
    let s : State := { State.reset with index := 0xFFD }
    let c : State := { State.reset with index := 0xFFE, cfg := oobCfg .clamp }
    let f : State := { State.reset with index := 0xFFE }
    (s.mem.wf (resetByte s.cfg) ∧ resolve s.cfg.oob (s.indexed 0) = .ok 0xFFD ∧ resolve s.cfg.oob (s.indexed 1) = .ok 0xFFE ∧
      resolve s.cfg.oob (s.indexed 2) = .ok 0xFFF) ∧
    (c.mem.wf (resetByte c.cfg) ∧ resolve c.cfg.oob (c.indexed 0) = .ok 0xFFE ∧ resolve c.cfg.oob (c.indexed 1) = .ok 0xFFF ∧
      resolve c.cfg.oob (c.indexed 2) = .ok 0xFFF) ∧
    (f.cfg.oob = .fault ∧ 0xFFF < f.index.toNat + 2) := by decide

/-- BlockStoreWritesRegisters and BlockLoadReadsRegisters, X = 15: the last place in range, a policy that resolves
every address, and the first place out of range under Fault. -/
theorem witness_block :
    let s : State := { State.reset with index := 0xFF0 }
    let c : State := { State.reset with index := 0xFFF, cfg := oobCfg .clamp }
    let f : State := { State.reset with index := 0xFF1 }
    (s.mem.wf (resetByte s.cfg) ∧ s.index.toNat + (0xF#4 : Nibble).toNat ≤ 0xFFF ∧
      resolve s.cfg.oob (s.indexed 15) = .ok 0xFFF ∧ resolve s.cfg.oob (s.indexed 14) ≠ .ok 0xFFF) ∧
    (c.mem.wf (resetByte c.cfg) ∧ c.cfg.oob ≠ .fault ∧ resolve c.cfg.oob (c.indexed 15) = .ok 0xFFF) ∧
    (f.cfg.oob = .fault ∧ 0xFFF < f.index.toNat + (0xF#4 : Nibble).toNat) := by decide

/-- DrawXorsSprite and DrawingTwiceRestoresTheScreen: glyph 0 at the screen's bottom right place that takes it whole. -/
def glyphAtCorner : State := ((State.reset.setReg 1 60).setReg 2 27)

theorem witness_sprite : glyphAtCorner.fb.wf ∧ glyphAtCorner.SpriteFits 0x1 0x2 (0x5#4 : Nibble).toNat := by
  refine ⟨by decide, fun r hr => ⟨_, State.memRead_of_le ?_, fun c hc hb => ⟨_, pixelIndex_inside _ ?_ ?_⟩⟩⟩
  · change 0 + r ≤ 0xFFF
    change r < 5 at hr
    omega
  · change 60 + c < 64
    by_contra hn
    have h4 : c = 4 ∨ c = 5 ∨ c = 6 ∨ c = 7 := by omega
    have h5 : r = 0 ∨ r = 1 ∨ r = 2 ∨ r = 3 ∨ r = 4 := by change r < 5 at hr; omega
    revert hb
    rcases h4 with rfl | rfl | rfl | rfl <;> rcases h5 with rfl | rfl | rfl | rfl | rfl <;> decide
  · change 27 + r < 32
    change r < 5 at hr
    omega

/-- DrawXorsSprite: a draw with a collision, and one with none. -/
theorem witness_collision :
    (∃ p, ({ glyphAtCorner with fb := [1788] } : State).fb.isOn p = true ∧
      1 ≤ ({ glyphAtCorner with fb := [1788] } : State).spriteHits 0x1 0x2 5 p) ∧
    (∀ p, (State.reset.fb.isOn p = true → State.reset.spriteHits 0x1 0x2 0 p = 0) ∧ State.reset.spriteHits 0x1 0x2 0 p ≤ 1) :=
  ⟨⟨1788, by decide⟩, fun p => ⟨fun h => absurd h (by simp [State.reset, State.construct]), Nat.zero_le 1⟩⟩

/-- DrawAddressesNoCellTwice. -/
theorem witness_no_cell_twice : State.reset.cfg.oob ≠ .clamp ∧ (edgeCfg .wrap).drawEdge ≠ .linear ∧
    (edgeCfg .clip).drawEdge ≠ .linear := by decide

/-- DrawRaisesFirstFault: the first row's byte out of range, and, at the screen's last place, a set pixel in column 1
past the frame buffer's end after a column that is not set. -/
theorem witness_draw_raises :
    let s : State := { State.reset with index := 0x1000 }
    let u : State := State.bytes { (State.reset.setReg 1 63).setReg 2 31 with index := 0x050 } 0x050 [0x40]
    0 < (0x1#4 : Nibble).toNat ∧ s.memRead (s.indexed 0) = .error (.memOutOfRange 0x1000) ∧
    u.memRead (u.indexed 0) = .ok 0x40 ∧ (0x40#8 : Byte).getLsbD (7 - 1) = true ∧ (0x40#8 : Byte).getLsbD (7 - 0) = false ∧
    pixelIndex u.cfg (u.spriteX 0x1 + 1) (u.spriteY 0x2 + 0) = .error (.frameOutOfRange 2048) := by decide

/-- DrawRaisesFirstFault: no row comes before the first. -/
theorem witness_draw_raises_fits (s : State) : s.SpriteFits 0x1 0x2 0 := fun r hr => absurd hr (Nat.not_lt_zero r)

/-- DrawingTwiceRestoresTheScreen: its last clause, a first draw that collides with nothing and turns cells on. -/
theorem witness_draw_twice : nextIs (exec (.drw 0x1 0x2 0x5) glyphAtCorner) (fun t => t.getReg 0xF == 0 && t.fb.isOn 1788) = true := by
  decide

/-- WaitForKeyTakesLowestOrWaits: the lowest of two keys, and none. -/
theorem witness_lowest_key : ((State.reset.setKey 0xF true).setKey 0x3 true).keyDown 0x3 = true ∧
    [0x0#4, 0x1#4, 0x2#4].all (fun j => !((State.reset.setKey 0xF true).setKey 0x3 true).keyDown j) = true ∧
    State.reset.key = Vector.replicate 16 false := by decide

end Sys2Proof.Tests
end

/-! PROOFS. The state: what every step keeps of it, and which parts of it each instruction changes (spec 10). -/

namespace Sys2Proof.Machine

/-! ### The range of `sp` -/

theorem State.spLegal_iff (s : State) :
    s.spLegal ↔ s.sp.toNat ≤ if s.cfg.stackPolicy = .wrap then 15 else 16 := by
  unfold State.spLegal
  cases s.cfg.stackPolicy <;> simp

/-- A pointer to a slot is legal under every policy. -/
theorem State.spLegal_of_lt {s : State} (h : s.sp.toNat < 16) : s.spLegal := by
  rw [State.spLegal_iff]
  split <;> omega

/-- Push keeps `sp` in its range. -/
theorem State.spLegal_push {s u : State} {a : Word} (hs : s.spLegal) (h : s.push a = .ok u) : u.spLegal := by
  rcases s.push_cases a with ⟨hlt, hp, e⟩ | ⟨-, -, e⟩ | ⟨-, -, e⟩ | ⟨-, e⟩ <;> rw [e] at h <;> cases h
  · have hnext : (s.sp + 1).toNat = s.sp.toNat + 1 := by bv_omega
    rw [State.spLegal_iff, State.setSlot_cfg, if_neg hp, State.setSlot_sp, hnext]
    exact hlt
  · exact hs
  · refine State.spLegal_of_lt ?_
    simp only [State.setSlot_sp, BitVec.toNat_ofNat]
    omega

/-- `sp` holds a slot's number without loss. -/
theorem slot_toNat {k : Nat} (hk : k < 16) : (BitVec.ofNat 8 k).toNat = k := by
  rw [BitVec.toNat_ofNat]
  omega

/-! ### The invariant -/

/-- The invariant speaks only of the parameters, memory, frame buffer and `sp`. -/
theorem State.Inv.of_same {s t : State} (h : s.Inv) (hcfg : t.cfg = s.cfg) (hmem : t.mem = s.mem) (hfb : t.fb = s.fb)
    (hsp : t.sp = s.sp) : t.Inv := by
  refine ⟨by rw [hcfg, hmem]; exact h.mem, by rw [hfb]; exact h.fb, ?_⟩
  rw [State.spLegal_iff, hcfg, hsp]
  exact s.spLegal_iff.1 h.sp

theorem State.Inv.raise {s : State} (h : s.Inv) (c : FaultCause) : (s.raise c).Inv :=
  h.of_same rfl rfl rfl rfl

theorem State.Inv.skipIf {s : State} (h : s.Inv) (b : Bool) : (s.skipIf b).Inv := by
  rw [State.skipIf_eq]
  exact h.of_same rfl rfl rfl rfl

/-- A byte stored where the memory controller resolves to keeps the invariant. -/
theorem State.Inv.setByte {s : State} (h : s.Inv) {a k : Nat} (hk : resolve s.cfg.oob a = .ok k) (b : Byte) :
    (s.setByte k b).Inv :=
  ⟨s.wf_setByte h.mem (resolve_lt hk) b, h.fb, h.sp⟩

theorem State.Inv.push {s u : State} {a : Word} (h : s.Inv) (hu : s.push a = .ok u) : u.Inv := by
  have hsp := State.spLegal_push h.sp hu
  have hframe := State.push_frame hu
  rw [hframe] at hsp ⊢
  exact ⟨h.mem, h.fb, hsp⟩

theorem State.Inv.storeReg {s u : State} {i : Nat} (h : s.Inv) (hu : s.storeReg i = .ok u) : u.Inv := by
  obtain ⟨k, hk, rfl⟩ := State.storeReg_ok hu
  exact h.setByte hk _

theorem State.Inv.loadReg {s u : State} {i : Nat} (h : s.Inv) (hu : s.loadReg i = .ok u) : u.Inv := by
  obtain ⟨b, -, rfl⟩ := State.loadReg_ok hu
  exact h.of_same rfl rfl rfl rfl

/-- Every handler keeps the invariant. -/
theorem Ran.keeps_inv {s t : State} {i : Instr} (h : Ran s t i) (hs : s.Inv) : t.Inv := by
  cases i with
  | cls _ =>
    subst h
    exact ⟨hs.mem, ⟨List.Pairwise.nil, by simp⟩, hs.sp⟩
  | ret _ =>
    obtain ⟨k, hk, -, rfl⟩ | ⟨c, -, rfl⟩ := h
    · exact ⟨hs.mem, hs.fb, State.spLegal_of_lt ((slot_toNat hk).trans_lt hk)⟩
    · exact hs.raise c
  | call nnn =>
    obtain ⟨u, hu, rfl⟩ | ⟨c, -, rfl⟩ := h
    · exact (hs.push hu).of_same rfl rfl rfl rfl
    · exact hs.raise c
  | drw x y n =>
    obtain ⟨d, hd, rfl⟩ | ⟨c, -, rfl⟩ := h
    · exact ⟨hs.mem, drawSprite_wf hs.fb hd, hs.sp⟩
    · exact hs.raise c
  | ldB x =>
    obtain ⟨k0, k1, k2, h0, h1, h2, rfl⟩ | ⟨a, -, -, rfl⟩ := h
    · exact ((hs.setByte h0 _).setByte h1 _).setByte h2 _
    · exact hs.raise _
  | ldMemVx x =>
    obtain hloop | ⟨c, -, rfl⟩ := h
    · exact foldlM_keeps State.Inv State.storeReg _ (fun _ _ _ => State.Inv.storeReg) s t hs hloop
    · exact hs.raise c
  | ldVxMem x =>
    obtain hloop | ⟨c, -, rfl⟩ := h
    · exact foldlM_keeps State.Inv State.loadReg _ (fun _ _ _ => State.Inv.loadReg) s t hs hloop
    · exact hs.raise c
  | skp x _ | sknp x _ =>
    obtain ⟨k, -, rfl⟩ | ⟨c, -, rfl⟩ := h
    · exact hs.skipIf _
    · exact hs.raise c
  | ldVxK x => obtain ⟨k, -, rfl⟩ | ⟨-, rfl⟩ := h <;> exact hs.of_same rfl rfl rfl rfl
  | seImm _ _ | sneImm _ _ | seReg _ _ _ | sneReg _ _ _ => subst h; exact hs.skipIf _
  | _ => subst h; exact hs.of_same rfl rfl rfl rfl

/-- The end of a step keeps the invariant: the tick and the lapse touch nothing it speaks of. -/
theorem State.Inv.commit {s u : State} (hs : s.Inv) (hu : u.Inv) : (s.commit u).Inv := by
  cases hf : u.fault with
  | none => rw [State.commit_of_none hf]; exact hu.of_same rfl rfl rfl rfl
  | some c => rw [State.commit_of_some hf]; exact hs.raise c

/-- Settles O21: the handler keeps the invariant, and so do the fetch before it and the end of the step after it. -/
theorem stepKeepsInvariant : Obligations.StepKeepsInvariant := by
  intro s t hs h
  obtain ⟨c, -, rfl⟩ | ⟨-, c, -, rfl⟩ | ⟨-, w, u, -, -, hx, rfl⟩ := step_next_cases h
  · exact hs
  · exact hs.raise c
  · have hentry : (s.setWord w).advance.Inv := hs.of_same rfl rfl rfl rfl
    exact hs.commit ((exec_next hx).keeps_inv hentry)

/-! ### What a completed step ran -/

/-- A completed step's handler ended without a fault, in a state that the tick and the lapse make the next one. -/
theorem Completes.ran_next {s t : State} {w : Word} (h : Completes s t w) :
    ∃ u, Ran (s.setWord w).advance u (decode w) ∧ u.fault = none ∧ t = u.tick.lapseWord := by
  obtain ⟨u, hx, hf, ht⟩ := h.ran
  exact ⟨u, exec_next hx, hf, ht⟩

/-- A state without a fault is not one in which a fault was raised. -/
theorem State.not_raised {s t : State} {P : FaultCause → Prop} (hf : t.fault = none) : ¬∃ c, P c ∧ t = s.raise c := by
  rintro ⟨c, -, rfl⟩
  cases hf

/-! ### The pc -/

/-- A skip's pc, counted from the instruction: 2 past it, or 4. -/
theorem skip_pc (s : State) (w : Word) (b : Bool) :
    ((s.setWord w).advance.skipIf b).pc = if b then s.pc + 4 else s.pc + 2 := by
  rw [State.skipIf_eq]
  simp only [State.setPc_pc, State.advance_pc, State.setWord_pc, BitVec.add_assoc]
  rfl

/-- NNN + V0 stays below 65536. -/
theorem offsetTarget_toNat (s : State) (nnn : Addr) : (s.offsetTarget nnn).toNat = nnn.toNat + (s.getReg 0).toNat := by
  have := nnn.isLt
  have := (s.getReg 0).isLt
  simp only [State.offsetTarget, extendAddr, BitVec.toNat_add, BitVec.toNat_setWidth]
  omega

/-- Settles O17, by cases on the instruction that ran; a completed step raised nothing, which leaves each its effect. -/
theorem pcAfterEveryInstruction : Obligations.PcAfterEveryInstruction := by
  intro s t w h
  obtain ⟨u, hran, hf, rfl⟩ := h.ran_next
  generalize decode w = i at hran ⊢
  cases i with
  | ret _ =>
    obtain ⟨k, hk, -, rfl⟩ := hran.resolve_right (State.not_raised hf)
    have hsp := slot_toNat hk
    exact ⟨hsp.trans_lt hk, getElem_congr_idx hsp.symm⟩
  | call nnn =>
    obtain ⟨v, -, rfl⟩ := hran.resolve_right (State.not_raised hf)
    rfl
  | jpV0 nnn => subst hran; exact offsetTarget_toNat _ nnn
  | seImm _ _ | sneImm _ _ | seReg _ _ _ | sneReg _ _ _ => subst hran; simp [skip_pc]
  | skp x _ =>
    obtain ⟨k, hk, rfl⟩ := hran.resolve_right (State.not_raised hf)
    exact ⟨k, by simpa using hk, by simp [skip_pc]⟩
  | sknp x _ =>
    obtain ⟨k, hk, rfl⟩ := hran.resolve_right (State.not_raised hf)
    exact ⟨k, by simpa using hk, by simp [skip_pc, ← Bool.not_eq_true]⟩
  | ldVxK x =>
    obtain ⟨k, hk, rfl⟩ | ⟨hnone, rfl⟩ := hran
    · obtain ⟨-, hdown, -⟩ := State.firstKey_some hk
      exact ⟨fun _ => rfl, fun hup => absurd ((hup _).symm.trans hdown) (by decide)⟩
    · exact ⟨fun ⟨k, hdown⟩ => absurd ((State.firstKey_none hnone k).symm.trans hdown) (by decide),
        fun _ => BitVec.add_sub_cancel s.pc 2⟩
  | drw x y n => obtain ⟨d, -, rfl⟩ := hran.resolve_right (State.not_raised hf); rfl
  | ldB x => obtain ⟨k0, k1, k2, -, -, -, rfl⟩ | ⟨a, -, -, rfl⟩ := hran <;> rfl
  | ldMemVx x =>
    obtain ⟨hmem, -⟩ := storeLoop_ok _ (hran.resolve_right (State.not_raised hf))
    rw [hmem]; rfl
  | ldVxMem x =>
    obtain ⟨hv, -⟩ := loadLoop_ok _ x.isLt (hran.resolve_right (State.not_raised hf))
    rw [hv]; rfl
  | _ => subst hran; rfl

/-! ### What a skip leaves alone -/

@[simp] theorem State.getReg_skipIf (s : State) (b : Bool) (r : Nibble) : (s.skipIf b).getReg r = s.getReg r := by
  cases b <;> rfl

@[simp] theorem State.skipIf_stack (s : State) (b : Bool) : (s.skipIf b).stack = s.stack := by
  cases b <;> rfl

@[simp] theorem State.skipIf_sp (s : State) (b : Bool) : (s.skipIf b).sp = s.sp := by
  cases b <;> rfl

/-! ### The general registers -/

/-- A register that a write changed is the one written. -/
theorem State.eq_of_setReg_changed {s : State} {x r : Nibble} {b : Byte} (h : (s.setReg x b).getReg r ≠ s.getReg r) :
    r = x := by
  by_contra hne
  exact h (s.getReg_setReg_ne b hne)

/-- A register that a result and its flag changed is the destination or VF. -/
theorem State.eq_of_setRegFlag_changed {s : State} {x r : Nibble} {b f : Byte}
    (h : (s.setRegFlag x b f).getReg r ≠ s.getReg r) : r = x ∨ r = 0xF := by
  by_contra hne
  obtain ⟨hx, hf⟩ := not_or.1 hne
  exact h ((s.getReg_setRegFlag x r b f).trans ((if_neg hf).trans (if_neg hx)))

/-- Settles O18, by cases on the instruction that ran: those that write registers first, each through the law of its
write, then those that keep the register file. -/
theorem registersChangeOnlyAsListed : Obligations.RegistersChangeOnlyAsListed := by
  intro s t w h r hne
  obtain ⟨u, hran, hf, rfl⟩ := h.ran_next
  replace hne : u.getReg r ≠ (s.setWord w).advance.getReg r := hne
  generalize decode w = i at hran ⊢
  cases i with
  | ldImm x _ | addImm x _ | ldReg x _ | orReg x _ | andReg x _ | xorReg x _ | ldVxDt x =>
    subst hran; exact State.eq_of_setReg_changed hne
  | rnd x _ => subst hran; exact State.eq_of_setReg_changed (s := (s.setWord w).advance.countDraw) hne
  | addReg x _ | sub x _ | subn x _ | shr x _ | shl x _ => subst hran; exact State.eq_of_setRegFlag_changed hne
  | drw x y n =>
    obtain ⟨d, -, rfl⟩ := hran.resolve_right (State.not_raised hf)
    exact State.eq_of_setReg_changed (s := (s.setWord w).advance.setFb d.fb) hne
  | ldVxK x =>
    obtain ⟨k, hk, rfl⟩ | ⟨-, rfl⟩ := hran
    · obtain ⟨-, hdown, -⟩ := State.firstKey_some hk
      exact ⟨State.eq_of_setReg_changed hne, _, hdown⟩
    · exact absurd rfl hne
  | ldVxMem x =>
    obtain ⟨-, -, hout⟩ := loadLoop_ok _ x.isLt (hran.resolve_right (State.not_raised hf))
    by_contra hr
    exact hne (hout r (Nat.not_le.1 hr))
  | ret _ => obtain ⟨k, hk, -, rfl⟩ := hran.resolve_right (State.not_raised hf); exact hne rfl
  | call nnn =>
    obtain ⟨v, hv, rfl⟩ := hran.resolve_right (State.not_raised hf)
    rw [State.push_frame hv] at hne
    exact hne rfl
  | skp x _ | sknp x _ =>
    obtain ⟨k, -, rfl⟩ := hran.resolve_right (State.not_raised hf)
    exact hne (State.getReg_skipIf _ _ r)
  | seImm _ _ | sneImm _ _ | seReg _ _ _ | sneReg _ _ _ => subst hran; exact hne (State.getReg_skipIf _ _ r)
  | ldB x => obtain ⟨k0, k1, k2, -, -, -, rfl⟩ | ⟨a, -, -, rfl⟩ := hran <;> exact hne rfl
  | ldMemVx x =>
    obtain ⟨hmem, -⟩ := storeLoop_ok _ (hran.resolve_right (State.not_raised hf))
    rw [hmem] at hne
    exact hne rfl
  | _ => subst hran; exact hne rfl

/-! ### The stack -/

/-- The only slot that a slot's write changes is the one written. -/
theorem State.setSlot_changed {s : State} {j : Fin 16} {a : Word} {n : Byte} {k : Nat} (hk : k < 16)
    (hne : (s.setSlot j a n).stack[k] ≠ s.stack[k]) : (s.setSlot j a n).stack[k] = a ∧ k = j.val := by
  rw [State.setSlot_stack] at hne ⊢
  have hkj : j.val = k := by
    by_contra hjk
    exact hne (Vector.getElem_set_ne _ _ hjk)
  subst hkj
  exact ⟨Vector.getElem_set_self _, rfl⟩

/-- The slot Push writes to (spec 41 R100): slot `sp`, or slot 15 of a full stack under Clamp. -/
theorem State.push_changes_slot {s u : State} {a : Word} (h : s.push a = .ok u) {k : Nat} (hk : k < 16)
    (hne : u.stack[k] ≠ s.stack[k]) :
    u.stack[k] = a ∧ k = (match s.cfg.stackPolicy with | .wrap => s.sp.toNat % 16 | _ => min s.sp.toNat 15) := by
  rcases s.push_cases a with ⟨hlt, hp, e⟩ | ⟨-, -, e⟩ | ⟨hfull, hp, e⟩ | ⟨hp, e⟩ <;> rw [e] at h <;> cases h
  · refine (State.setSlot_changed hk hne).imp_right fun hj => hj.trans ?_
    split
    · next hw => exact absurd hw hp
    · exact (Nat.min_eq_left (Nat.le_of_lt_succ hlt)).symm
  · refine (State.setSlot_changed hk hne).imp_right fun hj => hj.trans ?_
    rw [hp]
    exact (Nat.min_eq_right (Nat.le_of_succ_le hfull)).symm
  · refine (State.setSlot_changed hk hne).imp_right fun hj => hj.trans ?_
    rw [hp]
    exact Nat.mod_mod _ _

/-- Every handler but Call's and Return's leaves the stack and `sp` alone. -/
theorem Ran.stack_cases {s t : State} {i : Instr} (h : Ran s t i) :
    (∃ nnn, i = .call nnn) ∨ (∃ b, i = .ret b) ∨ (t.stack = s.stack ∧ t.sp = s.sp) := by
  cases i with
  | call nnn => exact .inl ⟨nnn, rfl⟩
  | ret b => exact .inr (.inl ⟨b, rfl⟩)
  | skp x _ | sknp x _ => obtain ⟨k, -, rfl⟩ | ⟨c, -, rfl⟩ := h <;> simp
  | seImm _ _ | sneImm _ _ | seReg _ _ _ | sneReg _ _ _ => subst h; simp
  | drw x y n => obtain ⟨d, -, rfl⟩ | ⟨c, -, rfl⟩ := h <;> simp
  | ldVxK x => obtain ⟨k, -, rfl⟩ | ⟨-, rfl⟩ := h <;> simp
  | ldB x => obtain ⟨k0, k1, k2, -, -, -, rfl⟩ | ⟨a, -, -, rfl⟩ := h <;> simp
  | ldMemVx x =>
    obtain hloop | ⟨c, -, rfl⟩ := h
    · obtain ⟨hmem, -⟩ := storeLoop_ok _ hloop
      rw [hmem]; simp
    · simp
  | ldVxMem x =>
    obtain hloop | ⟨c, -, rfl⟩ := h
    · obtain ⟨hv, -⟩ := loadLoop_ok _ x.isLt hloop
      rw [hv]; simp
    · simp
  | _ => subst h; simp

/-- Return keeps every slot, the popped one too. -/
theorem Ran.ret_stack {s t : State} {b : BitVec 8} (h : Ran s t (.ret b)) : t.stack = s.stack := by
  obtain ⟨k, hk, -, rfl⟩ | ⟨c, -, rfl⟩ := h <;> rfl

/-- Settles O19: Return keeps the slots, Call pushes, and no other instruction touches the stack or `sp`. -/
theorem stackAndSpChangeOnlyByCallAndReturn : Obligations.StackAndSpChangeOnlyByCallAndReturn := by
  intro s t w h
  obtain ⟨u, hran, hf, rfl⟩ := h.ran_next
  obtain ⟨nnn, hi⟩ | ⟨b, hi⟩ | ⟨hstack, hsp⟩ := hran.stack_cases
  · rw [hi] at hran ⊢
    obtain ⟨v, hv, rfl⟩ := hran.resolve_right (State.not_raised hf)
    exact ⟨fun k hk hne => ⟨⟨nnn, rfl⟩, State.push_changes_slot hv hk hne⟩, fun _ => .inl ⟨nnn, rfl⟩⟩
  · rw [hi] at hran ⊢
    exact ⟨fun k hk hne => absurd (getElem_congr_coll hran.ret_stack) hne, fun _ => .inr ⟨b, rfl⟩⟩
  · exact ⟨fun k hk hne => absurd (getElem_congr_coll hstack) hne, fun hne => absurd hsp hne⟩

end Sys2Proof.Machine

/-! PROOFS. Memory and the other stores: reading after a write, the fetch of a placed word, and which instruction changes
which store (spec 20, 10). -/

namespace Sys2Proof.Machine

/-! ### Reading through the memory controller -/

/-- MemRead of an address that resolves to the byte just stored. -/
theorem State.memRead_setByte_self {s : State} (h : s.mem.wf (resetByte s.cfg)) {q k : Nat}
    (hq : resolve s.cfg.oob q = .ok k) (b : Byte) : (s.setByte k b).memRead q = .ok b := by
  have hread : (s.setByte k b).memRead q = .ok ((s.setByte k b).byteAt k) := State.memRead_eq hq
  rw [hread, s.byteAt_setByte_self h]

/-- MemRead of an address that resolves elsewhere or raises. -/
theorem State.memRead_setByte_ne {s : State} {q k : Nat} (hq : resolve s.cfg.oob q ≠ .ok k) (b : Byte) :
    (s.setByte k b).memRead q = s.memRead q := by
  unfold State.memRead
  rw [State.setByte_cfg]
  cases hj : resolve s.cfg.oob q with
  | error c => rfl
  | ok j =>
    have hne : j ≠ k := fun e => hq (hj.trans (congrArg Except.ok e))
    exact congrArg Except.ok (s.byteAt_setByte_ne b hne)

/-- Settles O25: the write is a byte stored at the resolved address, and each read resolves there or elsewhere. -/
theorem memoryReadAfterWrite : Obligations.MemoryReadAfterWrite := by
  intro s t a b hwf h
  obtain ⟨k, hk, rfl⟩ := State.memWrite_ok h
  rw [hk]
  exact ⟨fun q hq => State.memRead_setByte_self hwf hq b, fun q hq => State.memRead_setByte_ne hq b, rfl,
    s.wf_setByte hwf (resolve_lt hk) b⟩

/-! ### A word placed at the pc -/

/-- A 16-bit row's bytes are the word's, high byte first. -/
theorem tableBytes_word (w : Word) : tableBytes 16 w.toNat = [hiByte w, loByte w] := by
  have hw : BitVec.ofNat 16 (w.toNat % 2 ^ 16) = w := by rw [Nat.mod_eq_of_lt w.isLt, BitVec.ofNat_toNat, BitVec.setWidth_eq]
  simp only [tableBytes, hw, Nat.le_refl, if_true]

theorem State.placeByte_of_le {s : State} {a : Nat} (h : a ≤ 0xFFF) (b : Byte) : s.placeByte a b = s.setByte a b := by
  unfold State.placeByte
  rw [State.memWrite_eq (resolve_of_le h)]

/-- Where the pc leaves room for it, a word is placed as its high byte at the pc and its low byte after it. -/
theorem State.withFetchWord_eq {s : State} (h : s.pc.toNat ≤ 0xFFE) (w : Word) :
    s.withFetchWord 16 w.toNat = (s.setByte s.pc.toNat (hiByte w)).setByte (s.pc.toNat + 1) (loByte w) := by
  simp only [State.withFetchWord, tableBytes_word, State.placeBytes]
  rw [State.placeByte_of_le (by omega), State.placeByte_of_le (by omega)]

/-- Settles O10: the fetch reads the two bytes that were stored and puts them together again. -/
theorem placedWordIsFetched : Obligations.PlacedWordIsFetched := by
  intro s w hwf hpc
  rw [State.withFetchWord_eq hpc]
  have hwf' := s.wf_setByte hwf (a := s.pc.toNat) (by simp only [Config.memSize]; omega) (hiByte w)
  have hlo : resolve s.cfg.oob (s.pc.toNat + 1) = .ok (s.pc.toNat + 1) := resolve_of_le (by omega)
  have hhi : resolve s.cfg.oob s.pc.toNat = .ok s.pc.toNat := resolve_of_le (by omega)
  have hapart : resolve s.cfg.oob s.pc.toNat ≠ .ok (s.pc.toNat + 1) := by rw [hhi]; simp
  refine ⟨?_, fun a ha ha' => ?_⟩
  · have hread := (State.memRead_setByte_ne (s := s.setByte s.pc.toNat (hiByte w)) hapart (loByte w)).trans
      (State.memRead_setByte_self hwf hhi (hiByte w))
    exact (State.fetch_eq hread (State.memRead_setByte_self hwf' hlo (loByte w))).trans
      (congrArg Except.ok (joinBytes_hi_lo w))
  · rw [State.byteAt_setByte_ne _ _ ha', State.byteAt_setByte_ne _ _ ha]

/-! ### Which instruction changes which store -/

/-- What instruction `i`, run from `s` to `t`, may have changed outside the registers, the stack and the timers. -/
structure StoresFrame (s t : State) (i : Instr) : Prop where
  key : t.key = s.key
  cfg : t.cfg = s.cfg
  draws : t.draws = match i with | .rnd _ _ => s.draws + 1 | _ => s.draws
  mem : t.mem ≠ s.mem → ∃ x, i = .ldB x ∨ i = .ldMemVx x
  fb : t.fb ≠ s.fb → (∃ b, i = .cls b) ∨ ∃ x y n, i = .drw x y n
  index : t.index ≠ s.index → (∃ nnn, i = .ldI nnn) ∨ ∃ x, i = .addI x ∨ i = .ldF x

/-- The frame of an instruction that keeps memory, frame buffer and I. -/
theorem StoresFrame.of_same {s t : State} {i : Instr} (hkey : t.key = s.key) (hcfg : t.cfg = s.cfg) (hmem : t.mem = s.mem)
    (hfb : t.fb = s.fb) (hindex : t.index = s.index)
    (hdraws : t.draws = match i with | .rnd _ _ => s.draws + 1 | _ => s.draws) : StoresFrame s t i :=
  ⟨hkey, hcfg, hdraws, absurd hmem, absurd hfb, absurd hindex⟩

/-- Every handler changes only the stores that are its own. -/
theorem Ran.storesFrame {s t : State} {i : Instr} (h : Ran s t i) : StoresFrame s t i := by
  cases i with
  | cls b => subst h; exact ⟨rfl, rfl, rfl, absurd rfl, fun _ => .inl ⟨b, rfl⟩, absurd rfl⟩
  | drw x y n =>
    obtain ⟨d, -, rfl⟩ | ⟨c, -, rfl⟩ := h
    · exact ⟨rfl, rfl, rfl, absurd rfl, fun _ => .inr ⟨x, y, n, rfl⟩, absurd rfl⟩
    · exact .of_same rfl rfl rfl rfl rfl rfl
  | ldI nnn => subst h; exact ⟨rfl, rfl, rfl, absurd rfl, absurd rfl, fun _ => .inl ⟨nnn, rfl⟩⟩
  | addI x => subst h; exact ⟨rfl, rfl, rfl, absurd rfl, absurd rfl, fun _ => .inr ⟨x, .inl rfl⟩⟩
  | ldF x => subst h; exact ⟨rfl, rfl, rfl, absurd rfl, absurd rfl, fun _ => .inr ⟨x, .inr rfl⟩⟩
  | ldB x =>
    obtain ⟨k0, k1, k2, -, -, -, rfl⟩ | ⟨a, -, -, rfl⟩ := h
    · exact ⟨rfl, rfl, rfl, fun _ => ⟨x, .inl rfl⟩, absurd rfl, absurd rfl⟩
    · exact .of_same rfl rfl rfl rfl rfl rfl
  | ldMemVx x =>
    obtain hloop | ⟨c, -, rfl⟩ := h
    · obtain ⟨hmem, -⟩ := storeLoop_ok _ hloop
      rw [hmem]
      exact ⟨rfl, rfl, rfl, fun _ => ⟨x, .inr rfl⟩, absurd rfl, absurd rfl⟩
    · exact .of_same rfl rfl rfl rfl rfl rfl
  | ldVxMem x =>
    obtain hloop | ⟨c, -, rfl⟩ := h
    · obtain ⟨hv, -⟩ := loadLoop_ok _ x.isLt hloop
      rw [hv]
      exact .of_same rfl rfl rfl rfl rfl rfl
    · exact .of_same rfl rfl rfl rfl rfl rfl
  | ret _ => obtain ⟨k, hk, -, rfl⟩ | ⟨c, -, rfl⟩ := h <;> exact .of_same rfl rfl rfl rfl rfl rfl
  | call nnn =>
    obtain ⟨u, hu, rfl⟩ | ⟨c, -, rfl⟩ := h
    · rw [State.push_frame hu]
      exact .of_same rfl rfl rfl rfl rfl rfl
    · exact .of_same rfl rfl rfl rfl rfl rfl
  | skp x _ | sknp x _ =>
    obtain ⟨k, -, rfl⟩ | ⟨c, -, rfl⟩ := h
    · rw [State.skipIf_eq]
      exact .of_same rfl rfl rfl rfl rfl rfl
    · exact .of_same rfl rfl rfl rfl rfl rfl
  | seImm _ _ | sneImm _ _ | seReg _ _ _ | sneReg _ _ _ =>
    subst h
    rw [State.skipIf_eq]
    exact .of_same rfl rfl rfl rfl rfl rfl
  | ldVxK x => obtain ⟨k, -, rfl⟩ | ⟨-, rfl⟩ := h <;> exact .of_same rfl rfl rfl rfl rfl rfl
  | _ => subst h; exact .of_same rfl rfl rfl rfl rfl rfl

/-- The keypad and the parameters after the end of a step whose handler kept them. -/
theorem State.commit_key_cfg {s u : State} (hkey : u.key = s.key) (hcfg : u.cfg = s.cfg) :
    (s.commit u).key = s.key ∧ (s.commit u).cfg = s.cfg := by
  cases hf : u.fault with
  | none => rw [State.commit_of_none hf]; exact ⟨hkey, hcfg⟩
  | some c => rw [State.commit_of_some hf]; exact ⟨rfl, rfl⟩

theorem step_keeps_key_cfg {s t : State} (h : step s = .next t) : t.key = s.key ∧ t.cfg = s.cfg := by
  obtain ⟨c, -, rfl⟩ | ⟨-, c, -, rfl⟩ | ⟨-, w, u, -, -, hx, rfl⟩ := step_next_cases h
  · exact ⟨rfl, rfl⟩
  · exact ⟨rfl, rfl⟩
  · have hframe := (exec_next hx).storesFrame
    exact State.commit_key_cfg hframe.key hframe.cfg

/-- Two states with the same memory and parameters read alike at every address. -/
theorem State.byteAt_congr {s t : State} (hcfg : t.cfg = s.cfg) (hmem : t.mem = s.mem) (a : Nat) :
    t.byteAt a = s.byteAt a := by
  unfold State.byteAt
  rw [hcfg, hmem]

/-- Settles O20: the frame of the handler that ran is the frame of the completed step, whose other parts touch no store. -/
theorem eachStoreChangesOnlyByItsInstructions : Obligations.EachStoreChangesOnlyByItsInstructions := by
  refine ⟨fun s t h => step_keeps_key_cfg h, fun s t w h => ?_⟩
  obtain ⟨u, hran, -, rfl⟩ := h.ran_next
  have hframe := hran.storesFrame
  exact ⟨fun ⟨a, hne⟩ => hframe.mem fun hmem => hne (State.byteAt_congr hframe.cfg hmem a),
    fun ⟨p, hne⟩ => hframe.fb fun hfb => hne (congrArg (fun f => Frame.isOn f p) hfb), hframe.index, hframe.draws⟩

end Sys2Proof.Machine

/-! PROOFS. The encoding: decoder and encoder undo each other, the no-op words, the opcode table, the ignored bits and
the aliases (spec 30). -/

namespace Sys2Proof.Machine

/-- The decoder's last arm is group F's. -/
theorem decode_groupF {w : Word} (h : fieldG w = 0xF#4) : decode w = decodeGroupF w := by
  simp [decode, h]

/-! ### No-op words (spec 30 R83) -/

theorem decodeGroup0_eq_nop_iff (w : Word) : decodeGroup0 w = .nop w ↔ fieldN w ≠ 0x0 ∧ fieldN w ≠ 0xE := by
  unfold decodeGroup0
  split <;> simp_all

theorem decodeGroup8_eq_nop_iff (w : Word) :
    decodeGroup8 w = .nop w ↔ fieldN w ∈ [0x8#4, 0x9#4, 0xA#4, 0xB#4, 0xC#4, 0xD#4, 0xF#4] := by
  have := group_cases (fieldN w)
  unfold decodeGroup8
  split <;> simp_all

theorem decodeGroupE_eq_nop_iff (w : Word) : decodeGroupE w = .nop w ↔ fieldN w ≠ 0x1 ∧ fieldN w ≠ 0xE := by
  unfold decodeGroupE
  split <;> simp_all

theorem decodeGroupF_eq_nop_iff (w : Word) : decodeGroupF w = .nop w ↔
    fieldNN w ∉ [0x07#8, 0x0A#8, 0x15#8, 0x18#8, 0x1E#8, 0x29#8, 0x33#8, 0x55#8, 0x65#8] := by
  unfold decodeGroupF
  split <;> simp_all

/-- Outside groups 0, 8, E and F no word is a no-op word. -/
theorem decode_eq_nop_iff (w : Word) : decode w = .nop w ↔
    (fieldG w = 0x0 ∧ fieldN w ≠ 0x0 ∧ fieldN w ≠ 0xE) ∨
    (fieldG w = 0x8 ∧ fieldN w ∈ [0x8#4, 0x9#4, 0xA#4, 0xB#4, 0xC#4, 0xD#4, 0xF#4]) ∨
    (fieldG w = 0xE ∧ fieldN w ≠ 0x1 ∧ fieldN w ≠ 0xE) ∨
    (fieldG w = 0xF ∧ fieldNN w ∉ [0x07#8, 0x0A#8, 0x15#8, 0x18#8, 0x1E#8, 0x29#8, 0x33#8, 0x55#8, 0x65#8]) := by
  rw [← decodeGroup0_eq_nop_iff, ← decodeGroup8_eq_nop_iff, ← decodeGroupE_eq_nop_iff, ← decodeGroupF_eq_nop_iff]
  rcases group_cases (fieldG w) with h | h | h | h | h | h | h | h | h | h | h | h | h | h | h | h <;> simp [decode, h]

/-- The decoder and the well-formedness check agree on the no-op words. -/
theorem isNopWord_iff_decode (w : Word) : isNopWord w = true ↔ decode w = .nop w := by
  rw [decode_eq_nop_iff, isNopWord_iff]
  simp only [List.mem_cons, List.not_mem_nil, or_false, not_or, ne_eq, ← BitVec.toNat_inj, fieldG_toNat, fieldN_toNat,
    fieldNN_toNat, BitVec.toNat_ofNat, BitVec.ofNat_eq_ofNat]
  omega

/-- Settles O5: the decoder's no-op words are group by group those listed, and the handler of each is the empty one. -/
theorem noOpWordsAreExactlyTheListed : Obligations.NoOpWordsAreExactlyTheListed := by
  refine ⟨decode_eq_nop_iff, fun w s h => ?_⟩
  rw [h]
  rfl

/-! ### Decoding what was encoded -/

/-- Settles O2, by cases on the instruction, by format (spec 30 R72): the fields of the encoded word are the operands and
codes it was put together from, so the decoder takes the instruction's own arm. -/
theorem decodeInvertsEncode : Obligations.DecodeInvertsEncode := by
  intro i h
  cases i with
  | nop w => exact (isNopWord_iff_decode w).1 h
  | cls _ | ret _ => simp only [encode, decode, decodeGroup0, fieldG_formatZ, fieldN_formatZ, fieldXY_formatZ]
  | jp _ | call _ | ldI _ | jpV0 _ => simp only [encode, decode, fieldG_formatA, fieldNNN_formatA]
  | seImm _ _ | sneImm _ _ | ldImm _ _ | addImm _ _ | rnd _ _ =>
    simp only [encode, decode, fieldG_formatXNN, fieldX_formatXNN, fieldNN_formatXNN]
  | seReg _ _ _ | sneReg _ _ _ | drw _ _ _ =>
    simp only [encode, decode, fieldG_formatXYN, fieldX_formatXYN, fieldY_formatXYN, fieldN_formatXYN]
  | ldReg _ _ | orReg _ _ | andReg _ _ | xorReg _ _ | addReg _ _ | sub _ _ | shr _ _ | subn _ _ | shl _ _ =>
    simp only [encode, decode, decodeGroup8, fieldG_formatXYN, fieldX_formatXYN, fieldY_formatXYN, fieldN_formatXYN]
  | skp _ _ | sknp _ _ =>
    simp only [encode, decode, decodeGroupE, fieldG_formatXYN, fieldX_formatXYN, fieldY_formatXYN, fieldN_formatXYN]
  | ldVxDt _ | ldVxK _ | ldDtVx _ | ldStVx _ | addI _ | ldF _ | ldB _ | ldMemVx _ | ldVxMem _ =>
    exact (decode_groupF (fieldG_formatXNN _ _ _)).trans
      (by simp only [decodeGroupF, fieldX_formatXNN, fieldNN_formatXNN])

/-! ### Encoding what was decoded -/

theorem formatA_of_fields {w : Word} {g : Nibble} (hg : fieldG w = g) : g ++ fieldNNN w = w :=
  hg ▸ word_formatA w

theorem formatXNN_of_fields {w : Word} {g : Nibble} (hg : fieldG w = g) : g ++ fieldX w ++ fieldNN w = w :=
  hg ▸ word_formatXNN w

theorem formatXYN_of_fields {w : Word} {g : Nibble} (hg : fieldG w = g) : g ++ fieldX w ++ fieldY w ++ fieldN w = w :=
  hg ▸ word_formatXYN w

theorem encode_decodeGroup0 {w : Word} (hg : fieldG w = 0x0#4) : encode (decodeGroup0 w) = w := by
  have hword (n : Nibble) (hn : fieldN w = n) : 0x0#4 ++ fieldXY w ++ n = w := hg ▸ hn ▸ word_formatZ w
  unfold decodeGroup0
  split
  case h_3 => rfl
  all_goals exact hword _ ‹_›

theorem encode_decodeGroup8 {w : Word} (hg : fieldG w = 0x8#4) : encode (decodeGroup8 w) = w := by
  have hword (n : Nibble) (hn : fieldN w = n) : 0x8#4 ++ fieldX w ++ fieldY w ++ n = w := hn ▸ formatXYN_of_fields hg
  unfold decodeGroup8
  split
  case h_10 => rfl
  all_goals exact hword _ ‹_›

theorem encode_decodeGroupE {w : Word} (hg : fieldG w = 0xE#4) : encode (decodeGroupE w) = w := by
  have hword (n : Nibble) (hn : fieldN w = n) : 0xE#4 ++ fieldX w ++ fieldY w ++ n = w := hn ▸ formatXYN_of_fields hg
  unfold decodeGroupE
  split
  case h_3 => rfl
  all_goals exact hword _ ‹_›

theorem encode_decodeGroupF {w : Word} (hg : fieldG w = 0xF#4) : encode (decodeGroupF w) = w := by
  have hword (nn : Byte) (hnn : fieldNN w = nn) : 0xF#4 ++ fieldX w ++ nn = w := hnn ▸ formatXNN_of_fields hg
  unfold decodeGroupF
  split
  case h_10 => rfl
  all_goals exact hword _ ‹_›

/-- By the decoder's arms, in their order: each instruction encodes the fields the decoder took from the word, by its
format. -/
theorem encode_decode (w : Word) : encode (decode w) = w := by
  unfold decode
  split
  · exact encode_decodeGroup0 ‹_›
  · exact formatA_of_fields ‹_›
  · exact formatA_of_fields ‹_›
  · exact formatXNN_of_fields ‹_›
  · exact formatXNN_of_fields ‹_›
  · exact formatXYN_of_fields ‹_›
  · exact formatXNN_of_fields ‹_›
  · exact formatXNN_of_fields ‹_›
  · exact encode_decodeGroup8 ‹_›
  · exact formatXYN_of_fields ‹_›
  · exact formatA_of_fields ‹_›
  · exact formatA_of_fields ‹_›
  · exact formatXNN_of_fields ‹_›
  · exact formatXYN_of_fields ‹_›
  · exact encode_decodeGroupE ‹_›
  · have hg : fieldG w = 0xF#4 := by
      have := group_cases (fieldG w)
      simp_all
    exact encode_decodeGroupF hg

/-- Settles O3: only a no-op can be ill formed, and the word it carries is the word decoded. -/
theorem everyWordDecodesAndEncodesBack : Obligations.EveryWordDecodesAndEncodesBack := by
  refine fun w => ⟨?_, encode_decode w⟩
  cases hd : decode w with
  | nop v =>
    have hv : v = w := (congrArg encode hd).symm.trans (encode_decode w)
    rw [hv] at hd ⊢
    exact (isNopWord_iff_decode w).2 hd
  | _ => rfl

/-! ### The opcode table (spec 30 R87) -/

/-- Masks and patterns alone give an instruction's word the instruction's row: the laws of its constructors together. -/
theorem tableMnemonic_encode {i : Instr} (h : i.wellFormed = true) : tableMnemonic (encode i) = mnemonicOf i :=
  match i with
  | .cls ign => Laws.TableRow.cls ign h
  | .ret ign => Laws.TableRow.ret ign h
  | .jp nnn => Laws.TableRow.jp nnn h
  | .call nnn => Laws.TableRow.call nnn h
  | .seImm x nn => Laws.TableRow.seImm x nn h
  | .sneImm x nn => Laws.TableRow.sneImm x nn h
  | .seReg x y ign => Laws.TableRow.seReg x y ign h
  | .ldImm x nn => Laws.TableRow.ldImm x nn h
  | .addImm x nn => Laws.TableRow.addImm x nn h
  | .ldReg x y => Laws.TableRow.ldReg x y h
  | .orReg x y => Laws.TableRow.orReg x y h
  | .andReg x y => Laws.TableRow.andReg x y h
  | .xorReg x y => Laws.TableRow.xorReg x y h
  | .addReg x y => Laws.TableRow.addReg x y h
  | .sub x y => Laws.TableRow.sub x y h
  | .shr x y => Laws.TableRow.shr x y h
  | .subn x y => Laws.TableRow.subn x y h
  | .shl x y => Laws.TableRow.shl x y h
  | .sneReg x y ign => Laws.TableRow.sneReg x y ign h
  | .ldI nnn => Laws.TableRow.ldI nnn h
  | .jpV0 nnn => Laws.TableRow.jpV0 nnn h
  | .rnd x nn => Laws.TableRow.rnd x nn h
  | .drw x y n => Laws.TableRow.drw x y n h
  | .skp x ign => Laws.TableRow.skp x ign h
  | .sknp x ign => Laws.TableRow.sknp x ign h
  | .ldVxDt x => Laws.TableRow.ldVxDt x h
  | .ldVxK x => Laws.TableRow.ldVxK x h
  | .ldDtVx x => Laws.TableRow.ldDtVx x h
  | .ldStVx x => Laws.TableRow.ldStVx x h
  | .addI x => Laws.TableRow.addI x h
  | .ldF x => Laws.TableRow.ldF x h
  | .ldB x => Laws.TableRow.ldB x h
  | .ldMemVx x => Laws.TableRow.ldMemVx x h
  | .ldVxMem x => Laws.TableRow.ldVxMem x h
  | .nop w => Laws.TableRow.nop w h

/-- Two different rows disagree on some bit that both masks look at. -/
theorem rows_disjoint :
    ∀ r ∈ opcodeTable, ∀ q ∈ opcodeTable, r.pattern &&& q.mask = q.pattern &&& r.mask → r = q := by
  decide

/-- The patterns of two rows that a word belongs to agree where both masks look. -/
theorem patterns_agree_of_matchesWord {r q : OpcodeRow} {w : Word} (hr : r.matchesWord w = true)
    (hq : q.matchesWord w = true) : r.pattern &&& q.mask = q.pattern &&& r.mask := by
  rw [← beq_iff_eq.1 hr, ← beq_iff_eq.1 hq, BitVec.and_assoc, BitVec.and_assoc, BitVec.and_comm q.mask]

/-- Settles O4: a word is that of the instruction it decodes to, whose row the table gives; and a word in two rows would
agree with both patterns. -/
theorem decodeAgreesWithOpcodeTable : Obligations.DecodeAgreesWithOpcodeTable := by
  refine ⟨fun w => ?_, fun w r hr q hq hrw hqw => rows_disjoint r hr q hq (patterns_agree_of_matchesWord hrw hqw)⟩
  obtain ⟨hwf, hw⟩ := everyWordDecodesAndEncodesBack w
  have htable := tableMnemonic_encode hwf
  rw [hw] at htable
  exact htable.symm

/-! ### Ignored bits and aliases (spec 30 R81, R82) -/

/-- Settles O6: decoding is O2's, and no handler takes the ignored bits. -/
theorem ignoredBitsChangeNothing : Obligations.IgnoredBitsChangeNothing :=
  fun b _ x y m _ _ =>
    ⟨⟨decodeInvertsEncode (.cls b) rfl, rfl⟩, ⟨decodeInvertsEncode (.ret b) rfl, rfl⟩,
      ⟨decodeInvertsEncode (.seReg x y m) rfl, rfl⟩, ⟨decodeInvertsEncode (.sneReg x y m) rfl, rfl⟩,
      ⟨decodeInvertsEncode (.skp x m) rfl, rfl⟩, ⟨decodeInvertsEncode (.sknp x m) rfl, rfl⟩⟩

/-- The decoder refuses aliases under STRICT_DECODE = true and nothing else. -/
theorem decodeWord_eq_none_iff (strict : Bool) (w : Word) :
    decodeWord strict w = none ↔ strict = true ∧ AliasWord w := by
  rw [← isAlias_decode_iff]
  simp [decodeWord]

theorem decodeWord_eq_some_iff (strict : Bool) (w : Word) :
    decodeWord strict w = some (decode w) ↔ strict = false ∨ ¬AliasWord w := by
  rw [← isAlias_decode_iff]
  simp [decodeWord, imp_iff_not_or]

theorem step_of_decodeWord_none {s : State} {w : Word} (hf : s.fault = none) (hw : s.fetch = .ok w)
    (hd : decodeWord s.cfg.strictDecode w = none) : step s = .refused (.strictAlias w) := by
  simp only [step, cycle, hf, hw, hd]

theorem step_of_decodeWord_some {s : State} {w : Word} {i : Instr} (hf : s.fault = none) (hw : s.fetch = .ok w)
    (hd : decodeWord s.cfg.strictDecode w = some i) : step s = commitResult s (exec i (s.setWord w).advance) := by
  simp only [step, cycle, hf, hw, hd]

/-- Settles O7: a step runs what the strict decoder gives, which is nothing for aliases and Decode's instruction
otherwise. -/
theorem strictDecodeRefusesAliasesOnly : Obligations.StrictDecodeRefusesAliasesOnly :=
  fun _ w hf hw =>
    ⟨fun hstrict halias => step_of_decodeWord_none hf hw ((decodeWord_eq_none_iff _ w).2 ⟨hstrict, halias⟩),
      fun hrun => step_of_decodeWord_some hf hw ((decodeWord_eq_some_iff _ w).2 hrun)⟩

/-! ### Words written out -/

/-- Settles O1, by running the decoder on the eleven words. -/
theorem sampleWordsDecode : Obligations.SampleWordsDecode := by
  unfold Obligations.SampleWordsDecode
  decide

end Sys2Proof.Machine

/-! PROOFS. The step: what it fetches, that it stands still once faulted, that it always answers a next state without
strict decoding, and what it does to the timers (spec 40). -/

namespace Sys2Proof.Machine

/-! ### Resolve under each policy (spec 20 R57) -/

theorem resolve_fault_of_lt {a : Nat} (h : 0xFFF < a) : resolve .fault a = .error (.memOutOfRange a) := by
  simp [resolve, Nat.not_le.2 h]

theorem resolve_wrap (a : Nat) : resolve .wrap a = .ok (a % 4096) := by
  by_cases h : a ≤ 0xFFF
  · rw [resolve_of_le h, Nat.mod_eq_of_lt (by omega)]
  · simp [resolve, h]

theorem resolve_clamp_of_le {a : Nat} (h : 0xFFF ≤ a) : resolve .clamp a = .ok 0xFFF := by
  obtain rfl | hlt := h.eq_or_lt
  · rfl
  · simp [resolve, Nat.not_le.2 hlt]

theorem State.memRead_of_resolve_error {s : State} {a : Nat} {c : FaultCause} (h : resolve s.cfg.oob a = .error c) :
    s.memRead a = .error c := by
  simp [State.memRead, h]

/-! ### The fetch (spec 40 R91) -/

theorem State.fetch_of_high_error {s : State} {c : FaultCause} (h : s.memRead s.pc.toNat = .error c) :
    s.fetch = .error c := by
  unfold State.fetch
  rw [h]
  rfl

theorem State.fetch_of_low_error {s : State} {b : Byte} {c : FaultCause} (hhi : s.memRead s.pc.toNat = .ok b)
    (hlo : s.memRead (s.pc.toNat + 1) = .error c) : s.fetch = .error c := by
  unfold State.fetch
  rw [hhi, hlo]
  rfl

/-- A fetch whose two addresses resolve reads the byte at the first above the byte at the second. -/
theorem State.fetch_of_resolve {s : State} {a b : Nat} (ha : resolve s.cfg.oob s.pc.toNat = .ok a)
    (hb : resolve s.cfg.oob (s.pc.toNat + 1) = .ok b) : s.fetch = .ok (s.byteAt a ++ s.byteAt b) :=
  State.fetch_eq (State.memRead_eq ha) (State.memRead_eq hb)

/-- Settles O9: both addresses are resolved as the policy says, `pc` first. -/
theorem fetchReadsTwoBytesBigEndian : Obligations.FetchReadsTwoBytesBigEndian := by
  refine fun s => ⟨fun hpc => ?_, fun hoob hpc => ?_, fun hoob hpc => ?_, fun hoob => ?_, fun hoob hpc => ?_⟩
  · exact State.fetch_of_resolve (resolve_of_le (by omega)) (resolve_of_le (by omega))
  · refine State.fetch_of_low_error (State.memRead_of_le hpc.le) (State.memRead_of_resolve_error ?_)
    rw [hoob, hpc]
    exact resolve_fault_of_lt (by omega)
  · refine State.fetch_of_high_error (State.memRead_of_resolve_error ?_)
    rw [hoob]
    exact resolve_fault_of_lt hpc
  · refine State.fetch_of_resolve ?_ ?_ <;> rw [hoob] <;> exact resolve_wrap _
  · refine State.fetch_of_resolve ?_ ?_ <;> rw [hoob] <;> exact resolve_clamp_of_le (by omega)

/-! ### The step (spec 40 R90) -/

theorem step_of_faulted {s : State} (h : s.fault ≠ none) : step s = .next s := by
  obtain ⟨c, hc⟩ := Option.ne_none_iff_exists'.1 h
  simp only [step, cycle, hc]

theorem step_of_fetch_error {s : State} {c : FaultCause} (hf : s.fault = none) (hc : s.fetch = .error c) :
    step s = .next (s.raise c) := by
  simp only [step, cycle, hf, hc]

/-- Settles O8, by cases on what the handler answers and on whether it raised. -/
theorem stepRunsDecodedInstruction : Obligations.StepRunsDecodedInstruction := by
  refine fun s => ⟨step_of_faulted, fun c => step_of_fetch_error, fun w i hf hw hd => ?_⟩
  rw [step_of_decodeWord_some hf hw hd]
  have hentry : (s.setWord w).advance = { s with w := w, pc := s.pc + 2 } := rfl
  rw [hentry]
  cases exec i { s with w := w, pc := s.pc + 2 } with
  | next t =>
    dsimp only [commitResult]
    split
    · next hraised => exact ⟨_, congrArg _ (State.commit_of_none hraised), rfl⟩
    · next c hraised => exact congrArg _ (State.commit_of_some hraised)
  | fault f => rfl
  | refused q => rfl

/-- Settles O29, which is the no-op's arm of `exec`. -/
theorem nopHandlerDoesNothing : Obligations.NopHandlerDoesNothing :=
  fun _ _ => rfl

/-! ### A faulted machine (spec 40 R96) -/

/-- A state that a step does not change is not changed by any number of steps. -/
theorem run_of_step_fixed {M : Host.Core} {s : M.State} (h : M.step s = .next s) (n : Nat) : M.run n s = .next s := by
  induction n with
  | zero => rfl
  | succ n ih => simp only [Host.Core.run, h, ih]

/-- Settles O11: the faulted state is a fixed point of the step. -/
theorem faultedMachineNeverChanges : Obligations.FaultedMachineNeverChanges :=
  fun n _ h => run_of_step_fixed (M := core) (step_of_faulted h) n

/-! ### Every step answers a next state -/

theorem finish_answers_next (s : State) (r : Except FaultCause State) : ∃ t, finish s r = .next t := by
  cases r with
  | ok t => exact ⟨t, rfl⟩
  | error c => exact ⟨s.raise c, rfl⟩

/-- With `sp` in its range, the slot Pop takes is one of the sixteen. -/
theorem State.popSlot_lt {s : State} (hs : s.spLegal) {k : Nat} (h : s.popSlot = .ok k) : k < 16 := by
  rcases s.popSlot_cases with ⟨-, -, e⟩ | ⟨-, hp, e⟩ | ⟨-, -, e⟩ | ⟨-, e⟩ <;> rw [e] at h <;> cases h
  · have hle := s.spLegal_iff.1 hs
    rw [if_neg hp] at hle
    omega
  · decide
  · exact Nat.mod_lt _ (by decide)

theorem execRet_answers_next {s : State} (hs : s.spLegal) : ∃ t, execRet s = .next t := by
  unfold execRet
  cases hk : s.popSlot with
  | error c => exact ⟨s.raise c, rfl⟩
  | ok k => exact ⟨_, dif_pos (State.popSlot_lt hs hk)⟩

/-- With `sp` in its range every handler answers a next state: only Return has another answer. -/
theorem exec_answers_next (i : Instr) {s : State} (hs : s.spLegal) : ∃ t, exec i s = .next t := by
  cases i with
  | ret _ => exact execRet_answers_next hs
  | call _ | drw _ _ _ | skp _ _ | sknp _ _ | ldB _ | ldMemVx _ | ldVxMem _ => exact finish_answers_next s _
  | ldVxK x =>
    change ∃ t, execLdVxK x s = .next t
    unfold execLdVxK
    cases s.firstKey with
    | some k => exact ⟨_, rfl⟩
    | none => exact ⟨_, rfl⟩
  | _ => exact ⟨_, rfl⟩

/-- Settles O15: without strict decoding no word is refused, and every handler answers. -/
theorem everyStepAnswersNext : Obligations.EveryStepAnswersNext := by
  intro s hs hstrict
  rcases step_cases s with ⟨c, -, e⟩ | ⟨-, c, -, e⟩ | ⟨-, w, -, hd, -⟩ | ⟨-, w, i, -, -, e⟩
  · exact ⟨s, e⟩
  · exact ⟨s.raise c, e⟩
  · rw [hstrict, decodeWord_false] at hd
    cases hd
  · have hsp : (s.setWord w).advance.spLegal := hs.sp
    obtain ⟨u, hu⟩ := exec_answers_next i hsp
    exact ⟨s.commit u, e.trans (congrArg (commitResult s) hu)⟩

/-! ### The timers (spec 40 R95, 45 R166 to R168) -/

/-- DT as instruction `i`'s handler, run from `s`, leaves it. -/
def State.dtAfter (s : State) : Instr → Byte
  | .ldDtVx x => s.getReg x
  | _ => s.dt

/-- ST as instruction `i`'s handler, run from `s`, leaves it. -/
def State.stAfter (s : State) : Instr → Byte
  | .ldStVx x => s.getReg x
  | _ => s.st

@[simp] theorem State.skipIf_dt (s : State) (b : Bool) : (s.skipIf b).dt = s.dt := by
  cases b <;> rfl

@[simp] theorem State.skipIf_st (s : State) (b : Bool) : (s.skipIf b).st = s.st := by
  cases b <;> rfl

/-- Every handler but the two timer writers' keeps both timers, whether it raises or not. -/
theorem Ran.timers {s t : State} {i : Instr} (h : Ran s t i) : t.dt = s.dtAfter i ∧ t.st = s.stAfter i := by
  cases i with
  | ret _ => obtain ⟨k, hk, -, rfl⟩ | ⟨c, -, rfl⟩ := h <;> exact ⟨rfl, rfl⟩
  | call nnn =>
    obtain ⟨u, hu, rfl⟩ | ⟨c, -, rfl⟩ := h
    · rw [State.push_frame hu]; exact ⟨rfl, rfl⟩
    · exact ⟨rfl, rfl⟩
  | skp x _ | sknp x _ =>
    obtain ⟨k, -, rfl⟩ | ⟨c, -, rfl⟩ := h
    · exact ⟨State.skipIf_dt _ _, State.skipIf_st _ _⟩
    · exact ⟨rfl, rfl⟩
  | seImm _ _ | sneImm _ _ | seReg _ _ _ | sneReg _ _ _ =>
    subst h
    exact ⟨State.skipIf_dt _ _, State.skipIf_st _ _⟩
  | drw x y n => obtain ⟨d, -, rfl⟩ | ⟨c, -, rfl⟩ := h <;> exact ⟨rfl, rfl⟩
  | ldVxK x => obtain ⟨k, -, rfl⟩ | ⟨-, rfl⟩ := h <;> exact ⟨rfl, rfl⟩
  | ldB x => obtain ⟨k0, k1, k2, -, -, -, rfl⟩ | ⟨a, -, -, rfl⟩ := h <;> exact ⟨rfl, rfl⟩
  | ldMemVx x =>
    obtain hloop | ⟨c, -, rfl⟩ := h
    · obtain ⟨hmem, -⟩ := storeLoop_ok _ hloop
      rw [hmem]; exact ⟨rfl, rfl⟩
    · exact ⟨rfl, rfl⟩
  | ldVxMem x =>
    obtain hloop | ⟨c, -, rfl⟩ := h
    · obtain ⟨hv, -⟩ := loadLoop_ok _ x.isLt hloop
      rw [hv]; exact ⟨rfl, rfl⟩
    · exact ⟨rfl, rfl⟩
  | _ => subst h; exact ⟨rfl, rfl⟩

/-- A tick is truncated subtraction: the floor of spec 40 R95. -/
theorem tickTimer_toNat (b : Byte) : (tickTimer b).toNat = b.toNat - 1 := by
  unfold tickTimer
  split
  · next h => rw [h]; rfl
  · next h => bv_omega

/-- Settles O16: the tick takes 1 from what the handler left in each timer. -/
theorem timersTickOncePerCompletedStep : Obligations.TimersTickOncePerCompletedStep := by
  intro s t w h
  obtain ⟨u, hran, -, rfl⟩ := h.ran_next
  obtain ⟨hdt, hst⟩ := hran.timers
  generalize decode w = i at hdt hst ⊢
  refine ⟨(tickTimer_toNat u.dt).trans ?_, (tickTimer_toNat u.st).trans ?_⟩
  · rw [hdt]; cases i <;> rfl
  · rw [hst]; cases i <;> rfl

end Sys2Proof.Machine

/-! PROOFS. Control flow: the jumps, Call and Return on the stack under each STACK_POLICY, and the skips (spec 41). -/

namespace Sys2Proof.Machine

/-! ### What changes the pc alone -/

theorem setPc_onlyPc (s : State) (a : Word) : OnlyPc s (s.setPc a) :=
  ⟨rfl, fun _ => rfl, fun _ => rfl⟩

theorem skipIf_onlyPc (s : State) (b : Bool) : OnlyPc s (s.skipIf b) := by
  rw [State.skipIf_eq]
  exact setPc_onlyPc s _

theorem State.skipIf_pc (s : State) (b : Bool) : (s.skipIf b).pc = if b then s.pc + 2 else s.pc := by
  rw [State.skipIf_eq, State.setPc_pc]

/-! ### The stack under each STACK_POLICY (spec 41 R100) -/

theorem State.push_of_lt {s : State} (hp : s.cfg.stackPolicy ≠ .wrap) (h : s.sp.toNat < 16) (a : Word) :
    s.push a = .ok (s.setSlot ⟨s.sp.toNat, h⟩ a (s.sp + 1)) := by
  unfold State.push
  split
  · exact dif_pos h
  · next hw => exact absurd hw hp
  · exact dif_pos h

theorem State.push_full_of_fault {s : State} (hp : s.cfg.stackPolicy = .fault) (h : 16 ≤ s.sp.toNat) (a : Word) :
    s.push a = .error (.stackOverflow s.sp) := by
  simp [State.push, hp, Nat.not_lt.2 h]

theorem State.push_full_of_clamp {s : State} (hp : s.cfg.stackPolicy = .clamp) (h : 16 ≤ s.sp.toNat) (a : Word) :
    s.push a = .ok (s.setSlot 15 a s.sp) := by
  simp [State.push, hp, Nat.not_lt.2 h]

theorem State.push_of_wrap {s : State} (hp : s.cfg.stackPolicy = .wrap) {k : Nat} (hk : k < 16)
    (h : s.sp.toNat % 16 = k) (a : Word) :
    s.push a = .ok (s.setSlot ⟨k, hk⟩ a (BitVec.ofNat 8 ((s.sp.toNat + 1) % 16))) := by
  have hslot : Fin.ofNat 16 (s.sp.toNat % 16) = ⟨k, hk⟩ := Fin.ext ((Nat.mod_mod _ _).trans h)
  simp only [State.push, hp, hslot]

theorem State.popSlot_of_pos {s : State} (hp : s.cfg.stackPolicy ≠ .wrap) (h : 1 ≤ s.sp.toNat) :
    s.popSlot = .ok (s.sp.toNat - 1) := by
  have hne : s.sp ≠ 0 := by bv_omega
  unfold State.popSlot
  split
  · exact if_neg hne
  · next hw => exact absurd hw hp
  · rfl

theorem State.popSlot_empty_of_fault {s : State} (hp : s.cfg.stackPolicy = .fault) (h : s.sp = 0) :
    s.popSlot = .error (.stackUnderflow 0) := by
  simp [State.popSlot, hp, h]

theorem State.popSlot_empty_of_clamp {s : State} (hp : s.cfg.stackPolicy = .clamp) (h : s.sp = 0) :
    s.popSlot = .ok 0 := by
  simp [State.popSlot, hp, h]

theorem State.popSlot_of_wrap {s : State} (hp : s.cfg.stackPolicy = .wrap) :
    s.popSlot = .ok ((s.sp.toNat + 15) % 16) := by
  simp only [State.popSlot, hp]

/-- From a stack that is not full Push writes slot `sp` under every policy, and leaves an `sp` from which Pop takes that
slot again. -/
theorem State.push_then_popSlot {s : State} (h : s.sp.toNat < 16) (a : Word) :
    ∃ n, s.push a = .ok (s.setSlot ⟨s.sp.toNat, h⟩ a n) ∧
      (s.setSlot ⟨s.sp.toNat, h⟩ a n).popSlot = .ok s.sp.toNat := by
  by_cases hp : s.cfg.stackPolicy = .wrap
  · refine ⟨_, State.push_of_wrap hp h (Nat.mod_eq_of_lt h) a, ?_⟩
    rw [State.popSlot_of_wrap (s := s.setSlot _ a _) hp, State.setSlot_sp, slot_toNat (Nat.mod_lt _ (by decide))]
    congr 1
    omega
  · have hsp : (s.sp + 1).toNat = s.sp.toNat + 1 := by bv_omega
    refine ⟨_, State.push_of_lt hp h a, ?_⟩
    rw [State.popSlot_of_pos (s := s.setSlot _ a _) hp (by rw [State.setSlot_sp]; omega), State.setSlot_sp, hsp,
      Nat.add_sub_cancel]

/-! ### Call and Return -/

theorem exec_call_of_push {s u : State} (h : s.push s.pc = .ok u) (nnn : Addr) :
    exec (.call nnn) s = .next (u.setPc (extendAddr nnn)) := by
  change execCall nnn s = _
  rw [execCall, h]
  rfl

theorem exec_call_of_push_error {s : State} {c : FaultCause} (h : s.push s.pc = .error c) (nnn : Addr) :
    exec (.call nnn) s = .next (s.raise c) := by
  change execCall nnn s = _
  rw [execCall, h]
  rfl

theorem exec_ret_of_popSlot {s : State} {k : Nat} (h : s.popSlot = .ok k) (hk : k < 16) {n : Byte}
    (hn : BitVec.ofNat 8 k = n) (b : BitVec 8) : exec (.ret b) s = .next { s with sp := n, pc := s.stack[k] } := by
  subst hn
  change execRet s = _
  rw [execRet, h]
  exact dif_pos hk

theorem exec_ret_of_popSlot_error {s : State} {c : FaultCause} (h : s.popSlot = .error c) (b : BitVec 8) :
    exec (.ret b) s = .next (s.raise c) := by
  change execRet s = _
  rw [execRet, h]

/-- Return pops what was pushed to slot `sp`, wherever the pc went since. -/
theorem exec_ret_of_pushed {s : State} (h : s.sp.toNat < 16) {a : Word} {n : Byte}
    (hpop : (s.setSlot ⟨s.sp.toNat, h⟩ a n).popSlot = .ok s.sp.toNat) (target : Word) (b : BitVec 8) :
    exec (.ret b) ((s.setSlot ⟨s.sp.toNat, h⟩ a n).setPc target) =
      .next { s with stack := s.stack.set s.sp.toNat a, pc := a } := by
  have hslot : ((s.setSlot ⟨s.sp.toNat, h⟩ a n).setPc target).stack[s.sp.toNat] = a := Vector.getElem_set_self _
  have hsp : BitVec.ofNat 8 s.sp.toNat = s.sp := (BitVec.ofNat_toNat _ _).trans (BitVec.setWidth_eq _)
  have hret := exec_ret_of_popSlot (s := (s.setSlot ⟨s.sp.toNat, h⟩ a n).setPc target) hpop h hsp b
  rw [hslot] at hret
  exact hret

/-- Settles O34: Return pops the slot Call pushed to, which holds the pc and whose number is the old `sp`. -/
theorem callThenReturnComesBack : Obligations.CallThenReturnComesBack := by
  intro nnn b s hsp
  have hlt : s.sp.toNat < 16 := Nat.lt_succ_of_le hsp
  obtain ⟨n, hpush, hpop⟩ := State.push_then_popSlot hlt s.pc
  exact ⟨_, _, exec_call_of_push hpush nnn, exec_ret_of_pushed hlt hpop _ b, rfl, rfl, rfl⟩

/-- Settles O32: Call's clauses are Push's, by policy, with the jump after it. -/
theorem callPushesAndJumps : Obligations.CallPushesAndJumps :=
  fun nnn _ =>
    ⟨decodeInvertsEncode (.call nnn) rfl,
      fun hp h => exec_call_of_push (State.push_of_lt hp h _) nnn,
      fun hp h => exec_call_of_push_error (State.push_full_of_fault hp h _) nnn,
      fun hp h => exec_call_of_push (State.push_full_of_clamp hp h _) nnn,
      fun hp h => exec_call_of_push (State.push_of_wrap hp h rfl _) nnn⟩

/-- Settles O33: Return's clauses are those of Pop's choice of a slot, whose number `sp` takes. -/
theorem returnPopsPc : Obligations.ReturnPopsPc := by
  refine fun b s => ⟨decodeInvertsEncode (.ret b) rfl, fun hp h1 hk => ?_, fun hp h0 => ?_, fun hp h0 => ?_,
    fun hp hk => ?_⟩
  · exact exec_ret_of_popSlot (State.popSlot_of_pos hp h1) hk (by bv_omega) b
  · exact exec_ret_of_popSlot_error (State.popSlot_empty_of_fault hp h0) b
  · exact exec_ret_of_popSlot (State.popSlot_empty_of_clamp hp h0) (by decide) h0.symm b
  · exact exec_ret_of_popSlot (State.popSlot_of_wrap hp) hk rfl b

/-! ### The jumps -/

/-- Settles O30: the address is extended with zeros. -/
theorem jumpSetsPc : Obligations.JumpSetsPc :=
  fun nnn s => ⟨decodeInvertsEncode (.jp nnn) rfl, s.setPc (extendAddr nnn), rfl,
    BitVec.toNat_setWidth_of_le (by decide), setPc_onlyPc s _⟩

/-- Settles O31: NNN + V0 is below 65536. -/
theorem jumpWithOffsetAddsV0 : Obligations.JumpWithOffsetAddsV0 :=
  fun nnn s => ⟨decodeInvertsEncode (.jpV0 nnn) rfl, s.setPc (s.offsetTarget nnn), rfl, offsetTarget_toNat s nnn,
    setPc_onlyPc s _⟩

/-! ### The skips -/

/-- A handler that skips on `b` skips when `c` holds, which `b` decides. -/
theorem skips_if {i : Instr} {s : State} {b : Bool} {c : Prop} [Decidable c] (h : exec i s = .next (s.skipIf b))
    (hb : b = true ↔ c) :
    ∃ t, exec i s = .next t ∧ OnlyPc s t ∧ t.pc = if c then s.pc + 2 else s.pc :=
  ⟨_, h, skipIf_onlyPc s b, by simp only [State.skipIf_pc, hb]⟩

/-- A handler that skips on `b` skips unless `c` holds, whose opposite `b` decides. -/
theorem skips_unless {i : Instr} {s : State} {b : Bool} {c : Prop} [Decidable c] (h : exec i s = .next (s.skipIf b))
    (hb : b = true ↔ ¬c) :
    ∃ t, exec i s = .next t ∧ OnlyPc s t ∧ t.pc = if c then s.pc else s.pc + 2 := by
  simpa only [ite_not] using skips_if h hb

/-- Settles O36: each compare skip is a skip on its comparison. -/
theorem compareSkips : Obligations.CompareSkips :=
  fun x y n nn _ =>
    ⟨⟨decodeInvertsEncode (.seImm x nn) rfl, skips_if rfl beq_iff_eq⟩,
      ⟨decodeInvertsEncode (.sneImm x nn) rfl, skips_unless rfl bne_iff_ne⟩,
      ⟨decodeInvertsEncode (.seReg x y n) rfl, skips_if rfl beq_iff_eq⟩,
      ⟨decodeInvertsEncode (.sneReg x y n) rfl, skips_unless rfl bne_iff_ne⟩⟩

/-! ### The key a register names (spec 41 R101) -/

theorem keyIndex_of_toNat_eq {policy : BoundsPolicy} {v : Byte} {k : Nibble} (h : k.toNat = v.toNat) :
    keyIndex policy v = .ok k := by
  have hle : v.toNat ≤ 15 := by omega
  have hk : v.setWidth 4 = k := by bv_omega
  rw [← hk]
  exact if_pos hle

theorem keyIndex_of_wrap {v : Byte} {k : Nibble} (hv : 15 < v.toNat) (h : k.toNat = v.toNat % 16) :
    keyIndex .wrap v = .ok k := by
  rw [keyIndex, if_neg (Nat.not_le.2 hv), ← h, BitVec.ofNat_toNat, BitVec.setWidth_eq]

theorem keyIndex_of_clamp {v : Byte} (hv : 15 < v.toNat) : keyIndex .clamp v = .ok 15 :=
  if_neg (Nat.not_le.2 hv)

theorem keyIndex_of_fault {v : Byte} (hv : 15 < v.toNat) : keyIndex .fault v = .error (.keyOutOfRange v) :=
  if_neg (Nat.not_le.2 hv)

/-! ### The key skips -/

theorem exec_skp_of_keyIndex {s : State} {x k : Nibble} (h : keyIndex s.cfg.oob (s.getReg x) = .ok k) (n : Nibble) :
    exec (.skp x n) s = .next (s.skipIf (s.keyDown k)) := by
  change execSkp x s = _
  rw [execSkp, h]
  rfl

theorem exec_sknp_of_keyIndex {s : State} {x k : Nibble} (h : keyIndex s.cfg.oob (s.getReg x) = .ok k) (n : Nibble) :
    exec (.sknp x n) s = .next (s.skipIf (!s.keyDown k)) := by
  change execSknp x s = _
  rw [execSknp, h]
  rfl

theorem exec_keySkips_of_keyIndex_error {s : State} {x : Nibble} {c : FaultCause}
    (h : keyIndex s.cfg.oob (s.getReg x) = .error c) (n : Nibble) :
    exec (.skp x n) s = .next (s.raise c) ∧ exec (.sknp x n) s = .next (s.raise c) := by
  change execSkp x s = _ ∧ execSknp x s = _
  rw [execSkp, execSknp, h]
  exact ⟨rfl, rfl⟩

/-- Settles O37: whichever way Vx names a key, KeyIndex gives that key, and the key skips skip by its state. -/
theorem keySkips : Obligations.KeySkips := by
  refine fun x n s => ⟨decodeInvertsEncode (.skp x n) rfl, decodeInvertsEncode (.sknp x n) rfl, fun k hk => ?_,
    fun hv hp => ?_⟩
  · have hindex : keyIndex s.cfg.oob (s.getReg x) = .ok k := by
      obtain hk | ⟨hv, hp, hk⟩ | ⟨hv, hp, rfl⟩ := hk
      · exact keyIndex_of_toNat_eq hk
      · rw [hp]; exact keyIndex_of_wrap hv hk
      · rw [hp]; exact keyIndex_of_clamp hv
    exact ⟨skips_if (exec_skp_of_keyIndex hindex n) Iff.rfl,
      skips_unless (exec_sknp_of_keyIndex hindex n) (by simp)⟩
  · have hindex : keyIndex s.cfg.oob (s.getReg x) = .error (.keyOutOfRange (s.getReg x)) := by
      rw [hp]; exact keyIndex_of_fault hv
    exact exec_keySkips_of_keyIndex_error hindex n

end Sys2Proof.Machine

/-! PROOFS. Register loads, the ALU and Random AND: each result and flag as arithmetic on the operands, and what a handler
that only writes registers does (spec 42). -/

namespace Sys2Proof.Machine

/-! ### Results as arithmetic on the operands -/

theorem add_eq_ofNat (a b : Byte) : a + b = BitVec.ofNat 8 ((a.toNat + b.toNat) % 256) := by
  bv_omega

theorem sub_eq_ofNat (a b : Byte) : a - b = BitVec.ofNat 8 ((256 + a.toNat - b.toNat) % 256) := by
  bv_omega

theorem shiftRight_one_eq_ofNat (b : Byte) : b >>> 1 = BitVec.ofNat 8 (b.toNat / 2) := by
  bv_omega

theorem shiftLeft_one_eq_ofNat (b : Byte) : b <<< 1 = BitVec.ofNat 8 (b.toNat * 2 % 256) := by
  bv_omega

/-! ### Flags as comparisons -/

/-- A flag is 1 exactly when the condition it decides holds. -/
theorem flagByte_decide (p : Prop) [Decidable p] : flagByte (decide p) = if p then 1 else 0 := by
  simp only [flagByte_eq, decide_eq_true_eq]

theorem carryFlag_eq (a b : Byte) : carryFlag a b = if 255 < a.toNat + b.toNat then 1 else 0 :=
  flagByte_decide _

theorem greaterFlag_eq (a b : Byte) : greaterFlag a b = if b.toNat < a.toNat then 1 else 0 :=
  flagByte_decide _

/-! ### The source of a shift (spec 42 R128, R130) -/

/-- A byte that SHIFT_SOURCE's register holds is the source. -/
theorem State.shiftOperand_eq {s : State} {x y : Nibble} {b : Byte}
    (h : (s.cfg.shiftSource = .vx ∧ b = s.getReg x) ∨ (s.cfg.shiftSource = .vy ∧ b = s.getReg y)) :
    s.shiftOperand x y = b := by
  obtain ⟨hsrc, rfl⟩ | ⟨hsrc, rfl⟩ := h <;> simp only [State.shiftOperand, hsrc]

/-! ### Handlers that write registers alone -/

/-- A handler that ends in one register's write sets that register, to whatever the written value equals. -/
theorem sets_reg {i : Instr} {s : State} {x : Nibble} {b c : Byte} (h : exec i s = .next (s.setReg x b)) (hb : b = c) :
    ∃ t, exec i s = .next t ∧ SetsReg s t x c :=
  ⟨_, h, hb ▸ setReg_setsReg s x b⟩

/-- A handler that ends in the write of a result and its flag sets those, to whatever the written values equal. -/
theorem sets_regAndFlag {i : Instr} {s : State} {x : Nibble} {b c f g : Byte}
    (h : exec i s = .next (s.setRegFlag x b f)) (hb : b = c) (hf : f = g) :
    ∃ t, exec i s = .next t ∧ SetsRegAndFlag s t x c g :=
  ⟨_, h, hb ▸ hf ▸ setRegFlag_setsRegAndFlag s x b f⟩

/-- Settles O38: the handler is one register's write. -/
theorem loadImmediateSetsRegister : Obligations.LoadImmediateSetsRegister :=
  fun x nn _ => ⟨decodeInvertsEncode (.ldImm x nn) rfl, sets_reg rfl rfl⟩

/-- Settles O39: addition of bytes is addition modulo 256, and no flag is written. -/
theorem addImmediateWrapsWithoutFlag : Obligations.AddImmediateWrapsWithoutFlag :=
  fun x nn _ => ⟨decodeInvertsEncode (.addImm x nn) rfl, sets_reg rfl (add_eq_ofNat _ _)⟩

/-- Settles O40: the handler is one register's write. -/
theorem moveCopiesRegister : Obligations.MoveCopiesRegister :=
  fun x y _ => ⟨decodeInvertsEncode (.ldReg x y) rfl, sets_reg rfl rfl⟩

/-- Settles O41: each handler writes the bitwise operation's result, whose bits are those of the operands combined. -/
theorem bitwiseOperations : Obligations.BitwiseOperations :=
  fun x y s =>
    ⟨⟨decodeInvertsEncode (.orReg x y) rfl, _, _, rfl, setReg_setsReg s x _, fun _ => BitVec.getLsbD_or⟩,
      ⟨decodeInvertsEncode (.andReg x y) rfl, _, _, rfl, setReg_setsReg s x _, fun _ => BitVec.getLsbD_and⟩,
      ⟨decodeInvertsEncode (.xorReg x y) rfl, _, _, rfl, setReg_setsReg s x _, fun _ => BitVec.getLsbD_xor⟩⟩

/-- Settles O42: the sum is taken modulo 256 and the flag compares the sum in the integers. -/
theorem addRegistersSetsCarry : Obligations.AddRegistersSetsCarry :=
  fun x y _ => ⟨decodeInvertsEncode (.addReg x y) rfl, sets_regAndFlag rfl (add_eq_ofNat _ _) (carryFlag_eq _ _)⟩

/-- Settles O43: the two subtractions differ in which operand is the minuend. -/
theorem subtractionsSetStrictFlag : Obligations.SubtractionsSetStrictFlag :=
  fun x y _ =>
    ⟨⟨decodeInvertsEncode (.sub x y) rfl, sets_regAndFlag rfl (sub_eq_ofNat _ _) (greaterFlag_eq _ _)⟩,
      ⟨decodeInvertsEncode (.subn x y) rfl, sets_regAndFlag rfl (sub_eq_ofNat _ _) (greaterFlag_eq _ _)⟩⟩

/-- Settles O44: under either SHIFT_SOURCE the source is the given byte, and shifting it halves or doubles it. -/
theorem shiftsSetShiftedOutBit : Obligations.ShiftsSetShiftedOutBit := by
  intro x y s b hsrc
  obtain rfl := State.shiftOperand_eq hsrc
  exact ⟨⟨decodeInvertsEncode (.shr x y) rfl, sets_regAndFlag rfl (shiftRight_one_eq_ofNat _) (lowBitFlag_eq _)⟩,
    ⟨decodeInvertsEncode (.shl x y) rfl, sets_regAndFlag rfl (shiftLeft_one_eq_ofNat _) (highBitFlag_eq _)⟩⟩

/-! ### Random AND -/

/-- Settles O45: the handler counts one draw and writes the drawn byte, masked; nothing depends on which byte it is. -/
theorem randomAndMasksOneDraw : Obligations.RandomAndMasksOneDraw := by
  intro x nn s
  obtain ⟨hx, hother, -, hmem⟩ := setReg_setsReg s.countDraw x (Config.randomByte s.draws &&& nn)
  refine ⟨decodeInvertsEncode (.rnd x nn) rfl, _, rfl, hx, fun i hi => ?_, hother, rfl, hmem⟩
  rw [hx, BitVec.getLsbD_and, hi, Bool.and_false]

end Sys2Proof.Machine

/-! PROOFS. The index register and the instructions that reach memory through it: what they set, and, for the stores and
loads at I and above, the first address out of range (spec 43). -/

namespace Sys2Proof.Machine

/-! ### Instructions that set I -/

theorem setIndex_onlyIndex (s : State) (a : Word) : OnlyIndex s (s.setIndex a) :=
  ⟨rfl, fun _ => rfl, fun _ => rfl⟩

/-- Five times a byte fits in 16 bits: the glyph address is not reduced. -/
theorem glyphAddr_toNat (v : Byte) : (glyphAddr v).toNat = 0x000 + 5 * v.toNat :=
  Nat.mod_eq_of_lt (show 0x000 + 5 * v.toNat < 65536 by omega)

/-- Settles O46: each handler is one write of I, and only the sum of I and Vx is reduced modulo 65536. -/
theorem indexInstructionsSetI : Obligations.IndexInstructionsSetI := by
  refine ⟨fun nnn s => ⟨decodeInvertsEncode (.ldI nnn) rfl, _, rfl, ?_, setIndex_onlyIndex s _⟩,
    fun x s => ⟨⟨decodeInvertsEncode (.addI x) rfl, _, rfl, ?_, setIndex_onlyIndex s _⟩,
      ⟨decodeInvertsEncode (.ldF x) rfl, _, rfl, glyphAddr_toNat _, setIndex_onlyIndex s _⟩⟩⟩
  · exact BitVec.toNat_setWidth_of_le (by decide)
  · rw [State.setIndex_index, BitVec.toNat_add, BitVec.toNat_setWidth_of_le (by decide)]

/-! ### The addresses from I on (spec 20 R57, 60 R178) -/

/-- Every address up to `I + n` resolves unless the policy is Fault and `I + n` is out of range. -/
theorem State.resolve_indexed_of_fits {s : State} {n : Nat} (h : s.cfg.oob ≠ .fault ∨ s.index.toNat + n ≤ 0xFFF)
    {i : Nat} (hi : i ≤ n) : ∃ k, resolve s.cfg.oob (s.indexed i) = .ok k := by
  cases hr : resolve s.cfg.oob (s.indexed i) with
  | ok k => exact ⟨k, rfl⟩
  | error c =>
    obtain ⟨-, hout, hp⟩ := resolve_error hr
    have hle := h.resolve_left (not_not_intro hp)
    simp only [State.indexed] at hout
    omega

/-- Where `I + n` is out of range under Fault, the first address that does not resolve is 0x1000, or I if that is
already above. -/
theorem State.first_indexed_error {s : State} {n : Nat} (hp : s.cfg.oob = .fault) (h : 0xFFF < s.index.toNat + n) :
    ∃ k ≤ n, (∀ i < k, ∃ a, resolve s.cfg.oob (s.indexed i) = .ok a) ∧
      resolve s.cfg.oob (s.indexed k) = .error (.memOutOfRange (max s.index.toNat 0x1000)) := by
  have hfirst : s.indexed (0x1000 - s.index.toNat) = max s.index.toNat 0x1000 := by
    simp only [State.indexed]; omega
  refine ⟨0x1000 - s.index.toNat, by omega, fun i hi => ⟨_, resolve_of_le ?_⟩, ?_⟩
  · simp only [State.indexed]; omega
  · rw [hfirst, hp]
    exact resolve_fault_of_lt (by omega)

/-! ### BCD store -/

theorem State.memWrite_of_resolve_error {s : State} {a : Nat} {c : FaultCause} (h : resolve s.cfg.oob a = .error c)
    (b : Byte) : s.memWrite a b = .error c := by
  simp [State.memWrite, h]

/-- The BCD store once its first digit is stored. -/
theorem exec_ldB_of_first {s : State} {k0 : Nat} (h0 : resolve s.cfg.oob (s.indexed 0) = .ok k0) (x : Nibble) :
    exec (.ldB x) s = finish s ((s.setByte k0 (hundreds (s.getReg x))).memWrite (s.indexed 1) (tens (s.getReg x)) >>=
      fun t => t.memWrite (s.indexed 2) (ones (s.getReg x))) := by
  change execLdB x s = _
  rw [execLdB, State.memWrite_eq h0]
  rfl

/-- The BCD store once its first two digits are stored. -/
theorem exec_ldB_of_first_two {s : State} {k0 k1 : Nat} (h0 : resolve s.cfg.oob (s.indexed 0) = .ok k0)
    (h1 : resolve s.cfg.oob (s.indexed 1) = .ok k1) (x : Nibble) :
    exec (.ldB x) s = finish s (((s.setByte k0 (hundreds (s.getReg x))).setByte k1 (tens (s.getReg x))).memWrite
      (s.indexed 2) (ones (s.getReg x))) := by
  rw [exec_ldB_of_first h0, State.memWrite_eq (s := s.setByte k0 _) h1]
  rfl

theorem exec_ldB_of_resolve {s : State} {k0 k1 k2 : Nat} (h0 : resolve s.cfg.oob (s.indexed 0) = .ok k0)
    (h1 : resolve s.cfg.oob (s.indexed 1) = .ok k1) (h2 : resolve s.cfg.oob (s.indexed 2) = .ok k2) (x : Nibble) :
    exec (.ldB x) s =
      .next (((s.setByte k0 (hundreds (s.getReg x))).setByte k1 (tens (s.getReg x))).setByte k2 (ones (s.getReg x))) := by
  rw [exec_ldB_of_first_two h0 h1, State.memWrite_eq (s := (s.setByte k0 _).setByte k1 _) h2, finish_ok]

/-- The BCD store raises for the first of its three addresses that does not resolve. -/
theorem exec_ldB_of_resolve_error {s : State} {k : Nat} (hk : k ≤ 2) {c : FaultCause}
    (hpre : ∀ i < k, ∃ a, resolve s.cfg.oob (s.indexed i) = .ok a) (he : resolve s.cfg.oob (s.indexed k) = .error c)
    (x : Nibble) : exec (.ldB x) s = .next (s.raise c) := by
  obtain rfl | rfl | rfl : k = 0 ∨ k = 1 ∨ k = 2 := by omega
  · change execLdB x s = _
    rw [execLdB, State.memWrite_of_resolve_error he]
    rfl
  · obtain ⟨k0, h0⟩ := hpre 0 (by decide)
    rw [exec_ldB_of_first h0, State.memWrite_of_resolve_error (s := s.setByte k0 _) he]
    rfl
  · obtain ⟨k0, h0⟩ := hpre 0 (by decide)
    obtain ⟨k1, h1⟩ := hpre 1 (by decide)
    rw [exec_ldB_of_first_two h0 h1, State.memWrite_of_resolve_error (s := (s.setByte k0 _).setByte k1 _) he,
      finish_error]

/-- Three bytes stored in a row: each address holds the last one stored to it. -/
theorem State.byteAt_setByte_three (s : State) (h : s.mem.wf (resetByte s.cfg)) {k0 k1 : Nat} (k2 : Nat)
    (h0 : k0 < Config.memSize) (h1 : k1 < Config.memSize) (b0 b1 b2 : Byte) (a : Nat) :
    (((s.setByte k0 b0).setByte k1 b1).setByte k2 b2).byteAt a =
      if a = k2 then b2 else if a = k1 then b1 else if a = k0 then b0 else s.byteAt a := by
  have hwf0 := s.wf_setByte h h0 b0
  have hwf1 := (s.setByte k0 b0).wf_setByte hwf0 h1 b1
  rw [State.byteAt_setByte _ hwf1, State.byteAt_setByte _ hwf0, State.byteAt_setByte _ h]

/-- Settles O47: the three stores where every address resolves, and otherwise the first raise. -/
theorem bcdStoreWritesThreeDigits : Obligations.BcdStoreWritesThreeDigits := by
  refine fun x s => ⟨decodeInvertsEncode (.ldB x) rfl, fun hwf k0 k1 k2 h0 h1 h2 => ?_, fun hp h => ?_⟩
  · exact ⟨_, exec_ldB_of_resolve h0 h1 h2 x, rfl, s.byteAt_setByte_three hwf k2 (resolve_lt h0) (resolve_lt h1) _ _ _⟩
  · obtain ⟨k, hk, hpre, he⟩ := State.first_indexed_error hp h
    exact exec_ldB_of_resolve_error hk hpre he x

/-! ### Block store and block load -/

theorem exec_ldMemVx_of_loop {s : State} {x : Nibble} {r : Except FaultCause State}
    (h : (List.range (x.toNat + 1)).foldlM State.storeReg s = r) : exec (.ldMemVx x) s = finish s r :=
  congrArg (finish s) h

theorem exec_ldVxMem_of_loop {s : State} {x : Nibble} {r : Except FaultCause State}
    (h : (List.range (x.toNat + 1)).foldlM State.loadReg s = r) : exec (.ldVxMem x) s = finish s r :=
  congrArg (finish s) h

/-- Settles O48: the loop of stores goes through where every address resolves, and otherwise stops at the first that
does not. -/
theorem blockStoreWritesRegisters : Obligations.BlockStoreWritesRegisters := by
  refine fun x s => ⟨decodeInvertsEncode (.ldMemVx x) rfl, fun hwf hfits => ?_, fun hp h => ?_⟩
  · obtain ⟨t, ht⟩ := storeLoop_total (x.toNat + 1) fun _ hi =>
      State.resolve_indexed_of_fits hfits (Nat.le_of_lt_succ hi)
    obtain ⟨hmem, -, -, hsame, hlast⟩ := storeLoop_ok _ ht
    exact ⟨t, exec_ldMemVx_of_loop ht, hmem,
      fun a i hi hia hlater => hlast hwf a i (Nat.lt_succ_of_le hi) hia fun j hij hj =>
        hlater j hij (Nat.le_of_lt_succ hj),
      fun a ha => hsame a fun i hi => ha i (Nat.le_of_lt_succ hi)⟩
  · obtain ⟨k, hk, hpre, he⟩ := State.first_indexed_error hp h
    exact exec_ldMemVx_of_loop (storeLoop_error (Nat.lt_succ_of_le hk) hpre he)

/-- Settles O49: the loop of loads goes through where every address can be read, and otherwise stops at the first that
cannot. -/
theorem blockLoadReadsRegisters : Obligations.BlockLoadReadsRegisters := by
  refine fun x s => ⟨decodeInvertsEncode (.ldVxMem x) rfl, fun hfits => ?_, fun hp h => ?_⟩
  · obtain ⟨t, ht⟩ := loadLoop_total (x.toNat + 1) x.isLt fun _ hi =>
      (State.resolve_indexed_of_fits hfits (Nat.le_of_lt_succ hi)).imp' s.byteAt fun _ => State.memRead_eq
    obtain ⟨hv, hin, hout⟩ := loadLoop_ok _ x.isLt ht
    refine ⟨t, exec_ldVxMem_of_loop ht, ⟨hv, fun a => by rw [hv]; rfl⟩, fun r hr => ?_, hout⟩
    have hread := hin r.toNat (Nat.lt_succ_of_le hr)
    rwa [BitVec.ofNat_toNat, BitVec.setWidth_eq] at hread
  · obtain ⟨k, hk, hpre, he⟩ := State.first_indexed_error hp h
    refine exec_ldVxMem_of_loop (loadLoop_error x.isLt (Nat.lt_succ_of_le hk) (fun i hi => ?_)
      (State.memRead_of_resolve_error he))
    exact (hpre i hi).imp' s.byteAt fun _ => State.memRead_eq

end Sys2Proof.Machine

/-! PROOFS. The display: the state a drawn sprite leaves, which pixels share a cell, the draw's first fault, and the same
sprite drawn twice (spec 44). -/

namespace Sys2Proof.Machine

/-- Settles O50: the handler empties the list of the cells that are on. -/
theorem clearScreenTurnsEveryCellOff : Obligations.ClearScreenTurnsEveryCellOff :=
  fun b _ => ⟨decodeInvertsEncode (.cls b) rfl, _, rfl, Frame.isOn_nil, rfl, fun _ => rfl, fun _ => rfl⟩

/-! ### A finished canvas becomes the frame buffer and VF -/

theorem flagByte_eq_zero_iff {b : Bool} : flagByte b = 0 ↔ b = false := by
  cases b <;> decide

/-- The state a draw leaves when its canvas is finished (spec 44 R156). -/
def State.showCanvas (s : State) (d : Canvas) : State := (s.setFb d.fb).setReg regVF (flagByte d.hit)

@[simp] theorem State.showCanvas_fb (s : State) (d : Canvas) : (s.showCanvas d).fb = d.fb := rfl

@[simp] theorem State.showCanvas_cfg (s : State) (d : Canvas) : (s.showCanvas d).cfg = s.cfg := rfl

@[simp] theorem State.memRead_showCanvas (s : State) (d : Canvas) (a : Nat) : (s.showCanvas d).memRead a = s.memRead a := rfl

@[simp] theorem State.indexed_showCanvas (s : State) (d : Canvas) (k : Nat) : (s.showCanvas d).indexed k = s.indexed k := rfl

@[simp] theorem State.getReg_showCanvas_vf (s : State) (d : Canvas) : (s.showCanvas d).getReg 0xF = flagByte d.hit :=
  State.getReg_setReg_self _ _ _

theorem State.getReg_showCanvas_ne (s : State) (d : Canvas) {r : Nibble} (h : r ≠ 0xF) :
    (s.showCanvas d).getReg r = s.getReg r :=
  State.getReg_setReg_ne _ _ h

/-- A sprite whose rows and pixels all have a place is drawn, and its canvas shown. -/
theorem exec_drw_of_drawSprite {s : State} {x y n : Nibble} {d : Canvas}
    (h : drawSprite s (s.spriteX x) (s.spriteY y) n.toNat = .ok d) : exec (.drw x y n) s = .next (s.showCanvas d) := by
  change execDrw x y n s = _
  rw [execDrw, h]
  rfl

theorem exec_drw_of_drawSprite_error {s : State} {x y n : Nibble} {e : FaultCause}
    (h : drawSprite s (s.spriteX x) (s.spriteY y) n.toNat = .error e) : exec (.drw x y n) s = .next (s.raise e) := by
  change execDrw x y n s = _
  rw [execDrw, h]
  rfl

/-- The draw of a sprite that fits shows a canvas on which each cell has been flipped once per pixel on it. -/
theorem exec_drw_of_fits {s : State} {x y n : Nibble} (hwf : s.fb.wf) (hfits : s.SpriteFits x y n.toNat) :
    ∃ d, exec (.drw x y n) s = .next (s.showCanvas d) ∧ Drawn s.fb (s.spriteHits x y n.toNat) d := by
  obtain ⟨d, hd⟩ := drawSprite_total n.toNat hfits
  exact ⟨d, exec_drw_of_drawSprite hd, drawSprite_drawn hwf x y n.toNat hd⟩

/-- No pixel on a cell that is on, and never two pixels on one cell, is no collision. -/
theorem Drawn.not_hit {f : Frame} {h : Nat → Nat} {d : Canvas} (hd : Drawn f h d)
    (hfree : ∀ p, (f.isOn p = true → h p = 0) ∧ h p ≤ 1) : d.hit = false := by
  rw [Bool.eq_false_iff, Ne, hd.hit]
  rintro ⟨p, hp⟩
  obtain ⟨hon, hle⟩ := hfree p
  obtain ⟨hp, hpos⟩ | htwo := hp
  · have := hon hp
    omega
  · omega

/-- Settles O51: the shown canvas holds the flips in the frame buffer and the collision in VF. -/
theorem drawXorsSprite : Obligations.DrawXorsSprite := by
  refine fun x y n s => ⟨decodeInvertsEncode (.drw x y n) rfl, fun hwf hfits => ?_⟩
  obtain ⟨d, hexec, hd⟩ := exec_drw_of_fits hwf hfits
  refine ⟨_, hexec, hd.on, fun hsome => ?_, fun hfree => ?_, fun r => s.getReg_showCanvas_ne d, rfl, fun _ => rfl⟩
  · rw [State.getReg_showCanvas_vf, hd.hit.2 hsome, flagByte_true]
  · rw [State.getReg_showCanvas_vf, hd.not_hit hfree, flagByte_false]

/-! ### Pixels of one sprite on one cell (spec 44 R156, R157) -/

/-- Under Clip, and under Linear with Fault or Wrap, a pixel's cell is its linear index, up to a whole screen. -/
theorem pixelIndex_linear_mod {cfg : Config} (hedge : cfg.drawEdge ≠ .wrap)
    (hclamp : cfg.drawEdge ≠ .linear ∨ cfg.oob ≠ .clamp) {px py p : Nat} (h : pixelIndex cfg px py = .ok (some p)) :
    p % 2048 = (py * 64 + px) % 2048 := by
  unfold pixelIndex at h
  split at h
  · next hlinear =>
    split at h
    · cases h; rfl
    · split at h
      · cases h
      · cases h; exact Nat.mod_mod _ _
      · next hoob => exact absurd hoob (hclamp.resolve_left (not_not_intro hlinear))
  · split at h <;> cases h; rfl
  · next hwrap => exact absurd hwrap hedge

/-- Under Wrap the cell gives both of a pixel's coordinates, up to a whole screen. -/
theorem pixelIndex_of_wrap {cfg : Config} (hedge : cfg.drawEdge = .wrap) {px py p : Nat}
    (h : pixelIndex cfg px py = .ok (some p)) : p = py % 32 * 64 + px % 64 := by
  rw [pixelIndex, hedge] at h
  cases h
  rfl

/-- Two pixels of one sprite, less than a screen apart, have one cell only if they are the same pixel. -/
theorem pixelIndex_inj {cfg : Config} (hclamp : cfg.drawEdge ≠ .linear ∨ cfg.oob ≠ .clamp) {x0 y0 r r' c c' p : Nat}
    (hr : r < 16) (hr' : r' < 16) (hc : c < 8) (hc' : c' < 8) (h : pixelIndex cfg (x0 + c) (y0 + r) = .ok (some p))
    (h' : pixelIndex cfg (x0 + c') (y0 + r') = .ok (some p)) : r = r' ∧ c = c' := by
  by_cases hedge : cfg.drawEdge = .wrap
  · have hcell := pixelIndex_of_wrap hedge h
    have hcell' := pixelIndex_of_wrap hedge h'
    omega
  · have hcell := pixelIndex_linear_mod hedge hclamp h
    have hcell' := pixelIndex_linear_mod hedge hclamp h'
    omega

/-- A pixel that lands on a cell is the set bit of a row that can be read, and the cell is its place. -/
theorem pixelIndex_of_spriteLands {s : State} {x y : Nibble} {p r c : Nat} (h : s.spriteLands x y p r c = true) :
    pixelIndex s.cfg (s.spriteX x + c) (s.spriteY y + r) = .ok (some p) := by
  unfold State.spriteLands at h
  split at h
  · exact of_decide_eq_true (Bool.and_eq_true_iff.1 h).2
  · cases h

/-- The pixels that land on a cell, counted over all rows and columns at once. -/
theorem spriteHits_eq_countP (s : State) (x y : Nibble) (n p : Nat) :
    s.spriteHits x y n p = (List.range n ×ˢ List.range 8).countP fun rc => s.spriteLands x y p rc.1 rc.2 := by
  simp only [SProd.sprod, List.product, List.countP_flatMap, Function.comp_def, List.countP_map, State.spriteHits]

/-- At most one element of a list without duplicates satisfies a predicate that no two of its elements satisfy. -/
theorem countP_le_one_of_nodup {α : Type} {l : List α} (hl : l.Nodup) {q : α → Bool}
    (h : ∀ a ∈ l, ∀ b ∈ l, q a = true → q b = true → a = b) : l.countP q ≤ 1 := by
  classical
  rw [List.countP_eq_length_filter, ← List.toFinset_card_of_nodup (hl.filter q), Finset.card_le_one]
  intro a ha b hb
  rw [List.mem_toFinset, List.mem_filter] at ha hb
  exact h a ha.1 b hb.1 ha.2 hb.2

/-- Settles O52: two pixels that land on one cell are in the same row and column. -/
theorem drawAddressesNoCellTwice : Obligations.DrawAddressesNoCellTwice := by
  intro x y n s p hclamp
  rw [spriteHits_eq_countP]
  refine countP_le_one_of_nodup (List.nodup_range.product List.nodup_range) ?_
  rintro ⟨r, c⟩ hrc ⟨r', c'⟩ hrc' h h'
  rw [List.mem_product, List.mem_range, List.mem_range] at hrc hrc'
  have := n.isLt
  obtain ⟨rfl, rfl⟩ := pixelIndex_inj hclamp (by omega) (by omega) hrc.2 hrc'.2 (pixelIndex_of_spriteLands h)
    (pixelIndex_of_spriteLands h')
  rfl

/-! ### The first fault in the draw's loop order (spec 60 R178) -/

/-- A column's set bit without a place raises, whatever is on the canvas. -/
theorem drawColumn_of_pixelIndex_error {cfg : Config} {b : Byte} {x0 py c : Nat} {e : FaultCause}
    (hb : b.getLsbD (7 - c) = true) (he : pixelIndex cfg (x0 + c) py = .error e) (d : Canvas) :
    drawColumn cfg b x0 py d c = .error e := by
  rw [drawColumn, if_pos hb, he]

/-- A row whose byte is out of range raises, whatever is on the canvas. -/
theorem drawRow_of_memRead_error {s : State} {r : Nat} {e : FaultCause} (he : s.memRead (s.indexed r) = .error e)
    (x0 y0 : Nat) (d : Canvas) : drawRow s x0 y0 d r = .error e := by
  rw [drawRow, he]
  rfl

/-- A row raises for its first set bit without a place, whatever is on the canvas. -/
theorem drawRow_of_pixelIndex_error {s : State} {x0 y0 r c : Nat} {b : Byte} {e : FaultCause}
    (hb : s.memRead (s.indexed r) = .ok b) (hc : c < 8) (hbit : b.getLsbD (7 - c) = true)
    (hpre : ∀ k, k < c → b.getLsbD (7 - k) = true → ∃ o, pixelIndex s.cfg (x0 + k) (y0 + r) = .ok o)
    (he : pixelIndex s.cfg (x0 + c) (y0 + r) = .error e) (d : Canvas) : drawRow s x0 y0 d r = .error e := by
  obtain ⟨u, hu⟩ := drawColumns_total c d hpre
  rw [drawRow_eq hb]
  exact foldlM_range_error _ hc d u e hu (drawColumn_of_pixelIndex_error hbit he u)

/-- A draw raises for the first row that does. -/
theorem exec_drw_of_drawRow_error {s : State} {x y n : Nibble} {r : Nat} {e : FaultCause} (hr : r < n.toNat)
    (hfits : s.SpriteFits x y r) (he : ∀ d, drawRow s (s.spriteX x) (s.spriteY y) d r = .error e) :
    exec (.drw x y n) s = .next (s.raise e) := by
  obtain ⟨u, hu⟩ := drawSprite_total r hfits
  exact exec_drw_of_drawSprite_error (foldlM_range_error _ hr _ u e hu (he u))

/-- Settles O53: the rows before row `r` are drawn, and row `r` raises for its byte or for its first pixel. -/
theorem drawRaisesFirstFault : Obligations.DrawRaisesFirstFault :=
  fun _ _ _ _ _ _ hr hfits =>
    ⟨fun he => exec_drw_of_drawRow_error hr hfits (drawRow_of_memRead_error he _ _),
      fun _ _ hb hc hbit hpre he => exec_drw_of_drawRow_error hr hfits (drawRow_of_pixelIndex_error hb hc hbit hpre he)⟩

/-! ### The same sprite a second time -/

theorem State.spriteX_showCanvas (s : State) (d : Canvas) {x : Nibble} (hx : x ≠ 0xF) :
    (s.showCanvas d).spriteX x = s.spriteX x := by
  rw [State.spriteX, s.getReg_showCanvas_ne d hx, State.spriteX]

theorem State.spriteY_showCanvas (s : State) (d : Canvas) {y : Nibble} (hy : y ≠ 0xF) :
    (s.showCanvas d).spriteY y = s.spriteY y := by
  rw [State.spriteY, s.getReg_showCanvas_ne d hy, State.spriteY]

/-- A draw moves no pixel of a sprite whose coordinates are not in VF. -/
theorem State.spriteHits_showCanvas (s : State) (d : Canvas) {x y : Nibble} (hx : x ≠ 0xF) (hy : y ≠ 0xF) (n : Nat) :
    (s.showCanvas d).spriteHits x y n = s.spriteHits x y n := by
  funext p
  simp only [State.spriteHits, State.spriteLands, State.memRead_showCanvas, State.indexed_showCanvas,
    State.showCanvas_cfg, s.spriteX_showCanvas d hx, s.spriteY_showCanvas d hy]

/-- A sprite whose coordinates are not in VF still fits after a draw. -/
theorem State.spriteFits_showCanvas_iff (s : State) (d : Canvas) {x y : Nibble} (hx : x ≠ 0xF) (hy : y ≠ 0xF) (n : Nat) :
    (s.showCanvas d).SpriteFits x y n ↔ s.SpriteFits x y n := by
  simp only [State.SpriteFits, State.memRead_showCanvas, State.indexed_showCanvas, State.showCanvas_cfg,
    s.spriteX_showCanvas d hx, s.spriteY_showCanvas d hy]

/-- The same pixels on a canvas a second time take every flip back. -/
theorem Drawn.twice_on {f : Frame} {h : Nat → Nat} {d e : Canvas} (hd : Drawn f h d) (he : Drawn d.fb h e) (p : Nat) :
    e.fb.isOn p = f.isOn p := by
  rw [he.on, hd.on, Bool.xor_assoc, Bool.xor_self, Bool.xor_false]

/-- A cell that pixels without a collision changed was off, one pixel turned it on, and the same pixel collides there
the second time. -/
theorem Drawn.twice_hit {f : Frame} {h : Nat → Nat} {d e : Canvas} (hd : Drawn f h d) (he : Drawn d.fb h e)
    (hfree : d.hit = false) {p : Nat} (hp : d.fb.isOn p ≠ f.isOn p) : e.hit = true := by
  have hodd : h p % 2 = 1 := by
    by_contra heven
    exact hp (by rw [hd.on, decide_eq_false heven, Bool.xor_false])
  have hoff : f.isOn p = false := by
    by_contra hon
    have hhit := hd.hit.2 ⟨p, .inl ⟨Bool.eq_true_of_not_eq_false hon, by omega⟩⟩
    rw [hfree] at hhit
    cases hhit
  exact he.hit.2 ⟨p, .inl ⟨by rw [hd.on, hoff, decide_eq_true hodd]; rfl, by omega⟩⟩

/-- Settles O54: both draws put the same pixels on the screen. -/
theorem drawingTwiceRestoresTheScreen : Obligations.DrawingTwiceRestoresTheScreen := by
  intro x y n s hwf hfits hx hy
  obtain ⟨d, hexec, hd⟩ := exec_drw_of_fits hwf hfits
  obtain ⟨e, hexec', he⟩ := exec_drw_of_fits (s := s.showCanvas d) hd.wf ((s.spriteFits_showCanvas_iff d hx hy _).2 hfits)
  rw [s.spriteHits_showCanvas d hx hy] at he
  refine ⟨_, _, hexec, hexec', hd.twice_on he, fun hvf ⟨p, hp⟩ => ?_⟩
  rw [State.getReg_showCanvas_vf] at hvf ⊢
  rw [hd.twice_hit he (flagByte_eq_zero_iff.1 hvf) hp, flagByte_true]

end Sys2Proof.Machine

/-! PROOFS. The timers and the keypad: what the instructions that copy a timer set, and what Wait-for-key makes of the
keys (spec 45). -/

namespace Sys2Proof.Machine

/-! ### The timer instructions (spec 45 R165 to R167) -/

/-- Settles O55: each handler is one write, of a register or of a timer. -/
theorem timerInstructionsCopy : Obligations.TimerInstructionsCopy :=
  fun x _ =>
    ⟨⟨decodeInvertsEncode (.ldVxDt x) rfl, sets_reg rfl rfl⟩, ⟨decodeInvertsEncode (.ldDtVx x) rfl, rfl⟩,
      ⟨decodeInvertsEncode (.ldStVx x) rfl, rfl⟩⟩

/-! ### The scan for the lowest pressed key (spec 45 R169) -/

/-- The scan stops at a pressed key with none pressed below it. -/
theorem State.firstKey_of_lowest {s : State} {k : Nibble} (hdown : s.keyDown k = true)
    (hbelow : ∀ j : Nibble, j.toNat < k.toNat → s.keyDown j = false) : s.firstKey = some k.toNat := by
  refine List.find?_range_eq_some.2 ⟨by rwa [BitVec.ofNat_toNat, BitVec.setWidth_eq], List.mem_range.2 k.isLt, ?_⟩
  intro j hj
  have hval : (BitVec.ofNat 4 j).toNat = j := Nat.mod_eq_of_lt (hj.trans k.isLt)
  rw [hbelow _ (hval.symm ▸ hj), Bool.not_false]

/-- With every key up the scan finds none. -/
theorem State.firstKey_of_all_up {s : State} (hup : ∀ k, s.keyDown k = false) : s.firstKey = none :=
  List.find?_eq_none.2 fun _ _ => ne_true_of_eq_false (hup _)

/-! ### Wait-for-key -/

theorem exec_ldVxK_of_firstKey_some {s : State} {k : Nat} (h : s.firstKey = some k) (x : Nibble) :
    exec (.ldVxK x) s = .next (s.setReg x (BitVec.ofNat 8 k)) := by
  change execLdVxK x s = _
  rw [execLdVxK, h]

theorem exec_ldVxK_of_firstKey_none {s : State} (h : s.firstKey = none) (x : Nibble) :
    exec (.ldVxK x) s = .next (s.setPc (s.pc - 2)) := by
  change execLdVxK x s = _
  rw [execLdVxK, h]

/-- Settles O56: the handler follows the scan, which finds the lowest pressed key, or nothing. -/
theorem waitForKeyTakesLowestOrWaits : Obligations.WaitForKeyTakesLowestOrWaits :=
  fun x _ =>
    ⟨decodeInvertsEncode (.ldVxK x) rfl,
      fun _ hdown hbelow =>
        sets_reg (exec_ldVxK_of_firstKey_some (State.firstKey_of_lowest hdown hbelow) x) (BitVec.ofNat_toNat _ _),
      fun hup => exec_ldVxK_of_firstKey_none (State.firstKey_of_all_up hup) x⟩

end Sys2Proof.Machine

/-! PROOFS. The faults and the host's ports: what every handler and every step can raise, that a raise is all or nothing,
and what a loaded image, a key write and a look at the frame buffer show (spec 60). -/

namespace Sys2Proof.Machine

/-! ### What an operation raises (spec 60 R177) -/

/-- Pop raises only StackUnderflow, under Fault, with the stack empty. -/
theorem State.popSlot_error {s : State} {c : FaultCause} (h : s.popSlot = .error c) :
    c = .stackUnderflow s.sp ∧ s.sp = 0 ∧ s.cfg.stackPolicy = .fault := by
  rcases s.popSlot_cases with ⟨h0, hp, e⟩ | ⟨-, -, e⟩ | ⟨-, -, e⟩ | ⟨-, e⟩ <;> rw [e] at h <;> cases h
  exact ⟨rfl, h0, hp⟩

/-- KeyIndex raises only KeyOutOfRange, under Fault, for a value above 15. -/
theorem keyIndex_error {policy : BoundsPolicy} {v : Byte} {c : FaultCause} (h : keyIndex policy v = .error c) :
    c = .keyOutOfRange v ∧ 15 < v.toNat ∧ policy = .fault := by
  rcases keyIndex_cases policy v with ⟨-, e⟩ | ⟨hv, hp, e⟩ | ⟨-, -, e⟩ | ⟨-, -, e⟩ <;> rw [e] at h <;> cases h
  exact ⟨rfl, hv, hp⟩

/-! ### What a handler raises -/

/-- The instructions that reach memory beside the fetch. -/
def ReachesMemory (i : Instr) : Prop :=
  (∃ x y n, i = .drw x y n) ∨ ∃ x, i = .ldB x ∨ i = .ldMemVx x ∨ i = .ldVxMem x

/-- The table of spec 60 R177 without the fetch: what the handler of an instruction can raise from a state, and when. -/
inductive Raises (s : State) : Instr → FaultCause → Prop
  | memory {i : Instr} {a : Nat} (hi : ReachesMemory i) (ha : 0xFFF < a) (hp : s.cfg.oob = .fault) :
      Raises s i (.memOutOfRange a)
  | frame (x y n : Nibble) {p : Nat} (hlow : 2048 ≤ p) (hhigh : p ≤ 2950) (hedge : s.cfg.drawEdge = .linear)
      (hp : s.cfg.oob = .fault) : Raises s (.drw x y n) (.frameOutOfRange p)
  | key {i : Instr} (x n : Nibble) (hi : i = .skp x n ∨ i = .sknp x n) (hv : 15 < (s.getReg x).toNat)
      (hp : s.cfg.oob = .fault) : Raises s i (.keyOutOfRange (s.getReg x))
  | overflow (nnn : Addr) (hfull : 16 ≤ s.sp.toNat) (hp : s.cfg.stackPolicy = .fault) :
      Raises s (.call nnn) (.stackOverflow s.sp)
  | underflow (b : BitVec 8) (hempty : s.sp = 0) (hp : s.cfg.stackPolicy = .fault) :
      Raises s (.ret b) (.stackUnderflow s.sp)

/-- No handler raises unless one of the two policies is Fault. -/
theorem Raises.policy {s : State} {i : Instr} {c : FaultCause} (h : Raises s i c) :
    s.cfg.oob = .fault ∨ s.cfg.stackPolicy = .fault := by
  cases h with
  | memory _ _ hp | frame _ _ _ _ _ _ hp | key _ _ _ _ hp => exact .inl hp
  | overflow _ _ hp | underflow _ _ hp => exact .inr hp

/-- A sprite's last pixel is in row 45 and column 70 at most, 2950 cells from the first. -/
theorem Raises.of_drawSprite {s : State} {x y n : Nibble} {c : FaultCause}
    (h : drawSprite s (s.spriteX x) (s.spriteY y) n.toNat = .error c) : Raises s (.drw x y n) c := by
  obtain ⟨r, -, hr⟩ | ⟨r, k, hr, hk, hpixel⟩ := drawSprite_error h
  · obtain ⟨rfl, ha, hp⟩ := State.memRead_error hr
    exact .memory (.inl ⟨x, y, n, rfl⟩) ha hp
  · obtain ⟨rfl, hlow, hedge, hp⟩ := pixelIndex_error hpixel
    have hx : s.spriteX x < 64 := Nat.mod_lt _ (by decide)
    have hy : s.spriteY y < 32 := Nat.mod_lt _ (by decide)
    have := n.isLt
    exact .frame x y n hlow (by omega) hedge hp

/-- Every handler keeps the fault register, or raises as listed and does nothing else. -/
theorem Ran.fault_kept_or_raises {s t : State} {i : Instr} (h : Ran s t i) :
    t.fault = s.fault ∨ ∃ c, t = s.raise c ∧ Raises s i c := by
  cases i with
  | ret b =>
    obtain ⟨k, hk, -, rfl⟩ | ⟨c, hc, rfl⟩ := h
    · exact .inl rfl
    · obtain ⟨rfl, hempty, hp⟩ := State.popSlot_error hc
      exact .inr ⟨_, rfl, .underflow b hempty hp⟩
  | call nnn =>
    obtain ⟨u, hu, rfl⟩ | ⟨c, hc, rfl⟩ := h
    · rw [State.push_frame hu]; exact .inl rfl
    · obtain ⟨rfl, hfull, hp⟩ := State.push_error hc
      exact .inr ⟨_, rfl, .overflow nnn hfull hp⟩
  | drw x y n =>
    obtain ⟨d, -, rfl⟩ | ⟨c, hc, rfl⟩ := h
    · exact .inl rfl
    · exact .inr ⟨c, rfl, .of_drawSprite hc⟩
  | skp x n | sknp x n =>
    obtain ⟨k, -, rfl⟩ | ⟨c, hc, rfl⟩ := h
    · rw [State.skipIf_eq]; exact .inl rfl
    · obtain ⟨rfl, hv, hp⟩ := keyIndex_error hc
      exact .inr ⟨_, rfl, .key x n (by simp) hv hp⟩
  | ldB x =>
    obtain ⟨k0, k1, k2, -, -, -, rfl⟩ | ⟨a, ha, hp, rfl⟩ := h
    · exact .inl rfl
    · exact .inr ⟨_, rfl, .memory (.inr ⟨x, .inl rfl⟩) ha hp⟩
  | ldMemVx x =>
    obtain hloop | ⟨c, hc, rfl⟩ := h
    · obtain ⟨hmem, -⟩ := storeLoop_ok _ hloop
      rw [hmem]; exact .inl rfl
    · obtain ⟨k, -, rfl, ha, hp⟩ := storeLoop_raises _ hc
      exact .inr ⟨_, rfl, .memory (.inr ⟨x, .inr (.inl rfl)⟩) ha hp⟩
  | ldVxMem x =>
    obtain hloop | ⟨c, hc, rfl⟩ := h
    · obtain ⟨hv, -⟩ := loadLoop_ok _ x.isLt hloop
      rw [hv]; exact .inl rfl
    · obtain ⟨k, -, rfl, ha, hp⟩ := loadLoop_raises _ x.isLt hc
      exact .inr ⟨_, rfl, .memory (.inr ⟨x, .inr (.inr rfl)⟩) ha hp⟩
  | seImm _ _ | sneImm _ _ | seReg _ _ _ | sneReg _ _ _ => subst h; rw [State.skipIf_eq]; exact .inl rfl
  | ldVxK x => obtain ⟨k, -, rfl⟩ | ⟨-, rfl⟩ := h <;> exact .inl rfl
  | _ => subst h; exact .inl rfl

/-! ### A step that raises (spec 60 R176) -/

/-- A step from a running state that ends with a fault recorded did nothing else: the fetch raised the fault, or the
handler of the fetched word did. -/
theorem step_raised {s t : State} {c : FaultCause} (hs : s.fault = none) (h : step s = .next t) (hc : t.fault = some c) :
    t = s.raise c ∧ (s.fetch = .error c ∨ ∃ w, s.fetch = .ok w ∧ Raises (s.setWord w).advance (decode w) c) := by
  obtain ⟨d, hd, -⟩ | ⟨-, d, hfetch, rfl⟩ | ⟨-, w, u, hfetch, -, hx, rfl⟩ := step_next_cases h
  · rw [hs] at hd; cases hd
  · cases hc
    exact ⟨rfl, .inl hfetch⟩
  · obtain hkept | ⟨d, rfl, hraises⟩ := (exec_next hx).fault_kept_or_raises
    · have hu : u.fault = none := hkept.trans hs
      rw [State.commit_of_none hu] at hc
      cases hu.symm.trans hc
    · cases hc
      exact ⟨rfl, .inr ⟨w, hfetch, hraises⟩⟩

/-- Settles O12: the raise is all the step did, and the faulted state is a fixed point of every later one. -/
theorem faultingStepIsAllOrNothing : Obligations.FaultingStepIsAllOrNothing := by
  intro s t c hs h hc
  obtain ⟨ht, -⟩ := step_raised hs h hc
  exact ⟨ht, fun n => faultedMachineNeverChanges n t (by rw [hc]; exact Option.some_ne_none c)⟩

/-- A legal stack pointer that leaves no free slot is 16. -/
theorem State.sp_eq_of_full {s : State} (hs : s.spLegal) (hfull : 16 ≤ s.sp.toNat) : s.sp = 16 := by
  have hle := s.spLegal_iff.1 hs
  split at hle <;> bv_omega

/-- Settles O13: the fetch raises only MemOutOfRange, and what the handlers raise is the table of `Raises`, in which the
invariant makes a full stack `sp = 16`. -/
theorem faultCausesAreAsListed : Obligations.FaultCausesAreAsListed := by
  intro s t c hinv hs h hc
  obtain ⟨-, hfetch | ⟨w, hw, hraises⟩⟩ := step_raised hs h hc
  · obtain ⟨hp, ⟨ha, rfl⟩ | ⟨-, rfl⟩⟩ := State.fetch_error hfetch
    · exact ⟨rfl, ha, hp, .inl hfetch⟩
    · exact ⟨rfl, by decide, hp, .inl hfetch⟩
  · generalize hi : decode w = i at hraises
    cases hraises with
    | memory hmem ha hp => exact ⟨rfl, ha, hp, .inr ⟨w, hw, hi ▸ hmem⟩⟩
    | frame x y n hlow hhigh hedge hp => exact ⟨rfl, hlow, hhigh, hedge, hp, w, x, y, n, hw, hi⟩
    | key x n hkey hv hp => exact ⟨rfl, hv, hp, w, x, n, hw, hi ▸ hkey, rfl⟩
    | overflow nnn hfull hp =>
      exact ⟨rfl, State.sp_eq_of_full hinv.sp hfull, rfl, hp, w, nnn, hw, hi⟩
    | underflow b hempty hp => exact ⟨rfl, hempty, rfl, hp, w, b, hw, hi⟩

/-- Settles O14: the fetch and every raising handler need one of the two policies to be Fault. -/
theorem noStepFaultsUnderWrapOrClamp : Obligations.NoStepFaultsUnderWrapOrClamp := by
  intro s t hoob hstack hs h
  by_contra hne
  obtain ⟨c, hc⟩ := Option.ne_none_iff_exists'.1 hne
  obtain ⟨-, hfetch | ⟨w, -, hraises⟩⟩ := step_raised hs h hc
  · obtain ⟨hp, -⟩ := State.fetch_error hfetch
    exact hoob hp
  · exact hraises.policy.elim hoob hstack

/-! ### The program-load port (spec 60 R186) -/

/-- Copying touches memory alone. -/
theorem State.copyBytes_frame (s : State) (a : Nat) (bs : List Byte) :
    s.copyBytes a bs = s.setMem (s.copyBytes a bs).mem := by
  induction bs generalizing s a with
  | nil => rfl
  | cons b bs ih => exact ih (s.setByte a b) (a + 1)

/-- Copying leaves the bytes before and after the copy alone. -/
theorem State.byteAt_copyBytes_of_outside (s : State) {a q : Nat} {bs : List Byte} (h : q < a ∨ a + bs.length ≤ q) :
    (s.copyBytes a bs).byteAt q = s.byteAt q := by
  induction bs generalizing s a with
  | nil => rfl
  | cons b bs ih =>
    rw [List.length_cons] at h
    exact (ih (s.setByte a b) (by omega)).trans (s.byteAt_setByte_ne b (by omega))

/-- A copy that fits in memory holds the bytes copied. -/
theorem State.byteAt_copyBytes {s : State} (hwf : s.mem.wf (resetByte s.cfg)) {a : Nat} {bs : List Byte}
    (hfit : a + bs.length ≤ 4096) {i : Nat} (hi : i < bs.length) : (s.copyBytes a bs).byteAt (a + i) = bs[i] := by
  induction bs generalizing s a i with
  | nil => exact absurd hi (Nat.not_lt_zero i)
  | cons b bs ih =>
    rw [List.length_cons] at hfit hi
    cases i with
    | zero =>
      exact (State.byteAt_copyBytes_of_outside _ (.inl (Nat.lt_succ_self a))).trans (s.byteAt_setByte_self hwf a b)
    | succ i =>
      have htail := ih (s.wf_setByte hwf (a := a) (show a < 4096 by omega) b) (a := a + 1) (by omega) (i := i) (by omega)
      rwa [Nat.add_right_comm, Nat.add_assoc] at htail

theorem State.Inv.copyBytes {s : State} (h : s.Inv) {a : Nat} {bs : List Byte} (hfit : a + bs.length ≤ 4096) :
    (s.copyBytes a bs).Inv := by
  induction bs generalizing s a with
  | nil => exact h
  | cons b bs ih =>
    rw [List.length_cons] at hfit
    exact ih (h.setByte (resolve_of_le (a := a) (by omega)) b) (by omega)

theorem State.loadImage_of_fits (s : State) {image : List Byte} (h : image.length ≤ 3584) :
    s.loadImage image = some (s.copyBytes 0x200 image) :=
  if_pos h

theorem State.loadImage_of_too_long (s : State) {image : List Byte} (h : 3584 < image.length) :
    s.loadImage image = none :=
  if_neg (Nat.not_le.2 h)

theorem State.hostMove_load_of_fits (s : State) {image : List Byte} (h : image.length ≤ 3584) :
    s.hostMove (.load image) = s.copyBytes 0x200 image :=
  congrArg (Option.getD · s) (s.loadImage_of_fits h)

theorem State.hostMove_load_of_too_long (s : State) {image : List Byte} (h : 3584 < image.length) :
    s.hostMove (.load image) = s :=
  congrArg (Option.getD · s) (s.loadImage_of_too_long h)

/-- Settles O26: an image of at most 3584 bytes ends within memory, so that its copy holds it. -/
theorem loadPortCopiesOrRejects : Obligations.LoadPortCopiesOrRejects := by
  refine fun s image hwf => ⟨fun hfits => ?_, fun hlong =>
    ⟨s.loadImage_of_too_long hlong, s.hostMove_load_of_too_long hlong⟩⟩
  exact ⟨_, s.loadImage_of_fits hfits, s.hostMove_load_of_fits hfits, s.copyBytes_frame _ _,
    fun _ hi => State.byteAt_copyBytes hwf (by omega) hi, fun _ => s.byteAt_copyBytes_of_outside⟩

/-- Settles O23: a loaded image stays within memory, a rejected one and a key write touch nothing the invariant speaks
of. -/
theorem hostMovesKeepInvariant : Obligations.HostMovesKeepInvariant := by
  intro s m hs
  cases m with
  | load image =>
    obtain hlong | hfits := Nat.lt_or_ge 3584 image.length
    · rw [s.hostMove_load_of_too_long hlong]
      exact hs
    · rw [s.hostMove_load_of_fits hfits]
      exact hs.copyBytes (by omega)
  | key k pressed => exact hs.of_same rfl rfl rfl rfl

/-! ### The keypad and the frame-buffer port (spec 60 R187, R190) -/

/-- Settles O27, by what every key reads after one is written. -/
theorem keypadPortSetsOneKey : Obligations.KeypadPortSetsOneKey :=
  fun s k pressed =>
    ⟨(s.keyDown_setKey k k pressed).trans (if_pos rfl), fun j hj => (s.keyDown_setKey k j pressed).trans (if_neg hj), rfl⟩

/-- Settles O28: the port answers by the cell. -/
theorem frameBufferPortShowsCells : Obligations.FrameBufferPortShowsCells :=
  fun _ _ => ⟨fun hon => if_pos hon, fun hoff => if_neg (Bool.eq_false_iff.1 hoff)⟩

end Sys2Proof.Machine

/-! PROOFS. Construction, which is the only reset: the invariant holds in the constructed state, and each part holds its
reset value (spec 70). -/

namespace Sys2Proof.Machine

/-! ### The invariant at construction (spec 70 R200) -/

/-- Empty lists are canonical under any parameters, and `sp` = 0 is in every policy's range. -/
theorem State.Inv.construct (cfg : Config) : (State.construct cfg).Inv where
  mem := ⟨List.Pairwise.nil, fun _ hp => absurd hp List.not_mem_nil⟩
  fb := ⟨List.Pairwise.nil, fun _ hp => absurd hp List.not_mem_nil⟩
  sp := State.spLegal_of_lt (show 0 < 16 by decide)

/-- Settles O22: the defaults of `reset` are one choice of the parameters. -/
theorem constructedStateMeetsInvariant : Obligations.ConstructedStateMeetsInvariant :=
  ⟨State.Inv.construct, State.Inv.construct Config.default⟩

/-! ### The reset values (spec 70 R201) -/

/-- The glyph region starts at address 0, so that an address in it is its own offset. -/
theorem resetByte_of_glyph (cfg : Config) {a : Nat} (h : a < 80) : resetByte cfg a = cfg.glyphData[a] :=
  dif_pos ⟨Nat.zero_le a, h⟩

theorem resetByte_above_glyphs (cfg : Config) {a : Nat} (h : 80 ≤ a) : resetByte cfg a = 0 :=
  dif_neg fun hglyph => Nat.not_lt.2 h hglyph.2

@[simp] theorem State.getReg_construct (cfg : Config) (r : Nibble) : (State.construct cfg).getReg r = 0 :=
  Vector.getElem_replicate _

@[simp] theorem State.stack_construct (cfg : Config) {k : Nat} (h : k < 16) : (State.construct cfg).stack[k] = 0 :=
  Vector.getElem_replicate _

@[simp] theorem State.keyDown_construct (cfg : Config) (k : Nibble) : (State.construct cfg).keyDown k = false :=
  Vector.getElem_replicate _

/-- Construction lists no address, so that each reads as its reset byte. -/
@[simp] theorem State.byteAt_construct (cfg : Config) (a : Nat) : (State.construct cfg).byteAt a = resetByte cfg a := rfl

/-- Settles O24: memory by the glyph region's bounds, each array by what its replicated entry is, the rest as written. -/
theorem resetValues : Obligations.ResetValues := by
  intro cfg s
  have hglyphs : ∀ (a : Nat) (h : a < 80), s.byteAt a = cfg.glyphData[a] := fun a h =>
    (State.byteAt_construct cfg a).trans (resetByte_of_glyph cfg h)
  have habove : ∀ a, 80 ≤ a → s.byteAt a = 0 := fun a h =>
    (State.byteAt_construct cfg a).trans (resetByte_above_glyphs cfg h)
  exact ⟨State.getReg_construct cfg, rfl, rfl, fun _ => State.stack_construct cfg, rfl, rfl, rfl, hglyphs, habove,
    Frame.isOn_nil, State.keyDown_construct cfg, rfl⟩

end Sys2Proof.Machine

/-! PROOFS. Return outside the stack pointer's range, which no run reaches: the model's own choice, log entry 6. -/

namespace Sys2Proof.Machine

/-- Return's third outcome, beside `exec_ret_of_popSlot` and `exec_ret_of_popSlot_error`: Pop chose a slot the stack does
not have. -/
theorem exec_ret_of_popSlot_illegal {s : State} {k : Nat} (h : s.popSlot = .ok k) (hk : 16 ≤ k) (b : BitVec 8) :
    exec (.ret b) s = .fault (.stackPointerIllegal s.sp) := by
  change execRet s = _
  rw [execRet, h]
  exact dif_neg (Nat.not_lt.2 hk)

/-- Settles O35: Pop chooses slot `sp - 1` under Fault and Clamp, and above 16 that slot is past the last. -/
theorem returnStopsOnIllegalStackPointer : Obligations.ReturnStopsOnIllegalStackPointer := by
  intro b s hp hsp
  have hpop : s.popSlot = .ok (s.sp.toNat - 1) := State.popSlot_of_pos hp (by omega)
  exact exec_ret_of_popSlot_illegal hpop (Nat.le_sub_one_of_lt hsp) b

end Sys2Proof.Machine
